-- ==== Sys2Proof/Word.lean ====
section
/-! DEFINITION. The word and byte types of the block. -/

namespace Sys2Proof

/-- A register value, 32 bits (`00_scope.md` R5 `REG_WIDTH`, R7). -/
abbrev Word := BitVec 32

/-- A byte (`00_scope.md` R7). -/
abbrev Byte := BitVec 8

end Sys2Proof
end

