-- ==== Sys2Proof/Syntax.lean ====
section
/-! DEFINITION. The commands of the block, one constructor for each row of `spec/opcode_table.json`.
A command has no operand fields: operands are registers (`30_encoding.md` R52, R55). -/

namespace Sys2Proof

/-- The six commands (`30_encoding.md` R53). -/
inductive Instr where
  /-- CLS, the lead-byte classifier (`40_classifier.md` R66). -/
  | cls
  /-- CEXT, the continuation-byte extractor (`40_classifier.md` R67). -/
  | cext
  /-- ENC, the encoder (`41_encoder.md` R72). -/
  | enc
  /-- DEC, the decoder (`42_decoder.md` R82). -/
  | dec
  /-- LEN, the length counter (`43_scanners.md` R89). -/
  | len
  /-- XFW, the bulk transcoder (`43_scanners.md` R90). -/
  | xfw
deriving DecidableEq, Repr

end Sys2Proof
end

