-- ==== Sys2Proof/WellFormed.lean ====
section
/-! DEFINITION. What a well-formed command is, as a term and as a word. -/

namespace Sys2Proof

/-- A command term has no immediate, register number or other field that could be ill-formed
(`30_encoding.md` R52), so every term is well-formed; one arm per constructor, so that a command
added later must say so for itself. -/
def Instr.wellFormed : Instr → Bool
  | .cls => true
  | .cext => true
  | .enc => true
  | .dec => true
  | .len => true
  | .xfw => true

/-- A command word is legal when RSVD = W[31:4] is 0 and OP = W[3:0] is in 0x1..0x6
(`30_encoding.md` R54). Stated on the number, apart from the decoder, so that the two can be
compared. -/
def legalWord (w : Word) : Bool :=
  w.toNat / 16 == 0 && (1 ≤ w.toNat % 16 && w.toNat % 16 ≤ 6)

end Sys2Proof
end

