-- ==== Sys2Proof/Decode.lean ====
section
/-! DEFINITION. The decoder of command words, total on every word, and after it the encoder
(`30_encoding.md` R52 to R56). -/

namespace Sys2Proof

/-- Why a word is no command (`30_encoding.md` R54). An illegal word is not a fault of the machine:
it completes with ERR = ILLEGAL_CMD (`60_exceptions.md` R99). -/
inductive DecodeError where
  /-- RSVD, W[31:4], is not 0. -/
  | reservedBits
  /-- OP is 0x0 or 0x7..0xF. -/
  | reservedOpcode
deriving DecidableEq, Repr

/-- The OP field, W[3:0] (`30_encoding.md` R52). -/
def opField (w : Word) : BitVec 4 := w.extractLsb' 0 4

/-- The RSVD field, W[31:4] (`30_encoding.md` R52). -/
def rsvdField (w : Word) : BitVec 28 := w.extractLsb' 4 28

/-- The command a word names, or why it names none: the opcode map of `30_encoding.md` R53, looking
at the whole word as R54 asks. -/
def decode (w : Word) : Except DecodeError Instr :=
  if rsvdField w ≠ 0 then .error .reservedBits
  else match (opField w).toNat with
    | 1 => .ok .cls
    | 2 => .ok .cext
    | 3 => .ok .enc
    | 4 => .ok .dec
    | 5 => .ok .len
    | 6 => .ok .xfw
    | _ => .error .reservedOpcode

/-- The opcode of a command (`30_encoding.md` R53). -/
def opcode : Instr → BitVec 4
  | .cls => 0x1
  | .cext => 0x2
  | .enc => 0x3
  | .dec => 0x4
  | .len => 0x5
  | .xfw => 0x6

/-- The command word of a command: RSVD = 0, then OP (`30_encoding.md` R52, R53). -/
def encode (i : Instr) : Word := (0 : BitVec 28) ++ opcode i

/-- The command the decoder reads from the low `nbits` bits of `w`, numbered as
`spec/opcode_table.json` numbers them. A command is one 32-bit word (`30_encoding.md` R52), so bits
past the 32nd that are not 0 leave no command (`notes/assumptions/19.md`). -/
def decodeTableWord (nbits w : Nat) : Option Instr :=
  if w % 2 ^ nbits < 2 ^ 32 then
    match decode (BitVec.ofNat 32 (w % 2 ^ nbits)) with
    | .ok i => some i
    | .error _ => none
  else none

end Sys2Proof
end

