-- ==== Sys2Proof/Config.lean ====
section
/-! DEFINITION. What is fixed for the block, and the values its spec leaves free. -/

namespace Sys2Proof.Config

/-- `CP_MAX`, the largest code point (`00_scope.md` R5). -/
def cpMax : Nat := 1114111

/-- The number of bytes of host memory, 2^`ADDR_WIDTH` (`20_memory.md` R33). -/
def memSize : Nat := 2 ^ 32

/-- The register window is 64 bytes (`10_state.md` R15). -/
def windowSize : Nat := 64

/-- What a byte of host memory that nothing has written reads as. DESIGN CHOICE, unsafe
(`notes/assumptions/4.md`): the spec gives host memory no contents. -/
def unwritten : Byte := 0

/-- The free bytes: the k-th byte the machine draws where the spec says "any value"
(`20_memory.md` R46 item 5, `70_reset_and_hazards.md` R114, `93_implementation_defined.md` I3, I4).
It has no body, so nothing can be proved of its values (`notes/assumptions/6.md`). -/
opaque freeByte : Nat → Byte

end Sys2Proof.Config
end

