-- ==== Sys2Proof/Machine/State.lean ====
section
/-! DEFINITION. The state of the block, the host memory and platform it stands on, and the moves of
the agents around it (`10_state.md`; `20_memory.md` R33). -/

namespace Sys2Proof.Machine

/-- The registers by name (`10_state.md` R15). `reserved` stands for the offsets 0x1C..0x3F, which
hold nothing (R22). -/
inductive Reg where
  | cmd | arg0 | arg1 | arg2 | res0 | res1 | status | reserved
deriving DecidableEq, Repr

/-- The values of STATUS.ERR by name (`10_state.md` R21). -/
inductive Err where
  /-- NONE: the last command succeeded. -/
  | none
  /-- OUT_OF_RANGE: written by ENC only. -/
  | outOfRange
  /-- INVALID: written by DEC and CEXT. -/
  | invalid
  /-- ILLEGAL_CMD: the command word is reserved. -/
  | illegalCmd
deriving DecidableEq, Repr

/-- The two scan commands (`00_scope.md` glossary). -/
inductive ScanKind where
  | len | xfw
deriving DecidableEq, Repr

/-- The scan context, held while a scan command runs (`10_state.md` R28): the latched command and
operands, the cursor p and the count, which is also XFW's next free output slot. -/
structure ScanCtx where
  kind : ScanKind
  base : Word
  n : Word
  out : Word
  cursor : Nat
  count : Nat
deriving DecidableEq, Repr

/-- What answers at a region of host addresses: ordinary memory, or something whose reads or writes
have side effects, such as a device FIFO (`20_memory.md` R41). -/
inductive RegionKind where
  | memory | sideEffect
deriving DecidableEq, Repr

/-- One region of the host's memory map. -/
structure Region where
  base : Nat
  size : Nat
  kind : RegionKind
deriving DecidableEq, Repr

/-- The open parameters (`00_scope.md` R5, `92_eei_decisions.md` D1, D16): `regBase` is `REG_BASE`;
`map` gives `MEM_ADMIT`, true of the addresses some region covers. They are the host platform's, no
step changes them, and statements hold for every value of them (`notes/assumptions/5.md`). -/
structure Platform where
  regBase : Nat
  map : List Region
deriving DecidableEq, Repr

/-- Host memory as address and byte pairs (`20_memory.md` R33), addresses strictly rising and no
entry equal to `Config.unwritten`. -/
abbrev Memory := List Host.Cell

/-- The moves of the agents around the block: host transactions (`30_encoding.md` R59, R60), the scan
engine's step (`70_reset_and_hazards.md` R120) and reset (R113). Widths are in bytes. -/
inductive Move where
  /-- The host writes `v` at a host address of the register window (`10_state.md` R23). -/
  | hostWrite (addr width : Nat) (v : Word)
  /-- The host reads at a host address of the register window (`10_state.md` R23, R25). -/
  | hostRead (addr width : Nat)
  /-- The host writes bytes of its memory at `a`, `a+1`, ... (`30_encoding.md` R59 `MEM`). -/
  | memWrite (a : Nat) (bytes : List Byte)
  /-- The host reads `count` bytes of its memory from `a`. -/
  | memRead (a count : Nat)
  /-- The polling loop WAIT (`30_encoding.md` R60); `polls` is how many times it reads BUSY = 1
  before the engine completes the scan (`notes/assumptions/3.md`). -/
  | wait (polls : Nat)
  /-- The scan engine takes its completion step, if a scan runs (`70_reset_and_hazards.md` R120). -/
  | engine
  /-- The host platform asserts reset (`70_reset_and_hazards.md` R113). -/
  | reset
deriving DecidableEq, Repr

/-- What a host read returned: a register's value or bytes of host memory. -/
inductive HostValue where
  | word (v : Word)
  | bytes (l : List Byte)
deriving DecidableEq, Repr

/-- How a step can fault. The block itself has no trap (`60_exceptions.md` R98). -/
inductive Fault where
  /-- A host access to host memory past its last byte (`20_memory.md` R33): raised by the moves
  `memWrite` and `memRead`. Safe: no such address exists (`notes/assumptions/16.md`). -/
  | hostAddressOutOfSpace
deriving DecidableEq, Repr

/-- Why the model has no meaning for a step. -/
inductive Refusal where
  /-- The command has no meaning in the model yet: raised by `exec` only. Safe. No arm raises it. -/
  | notModelled (mnemonic : String)
  /-- A register access that is not 32 bits wide (`10_state.md` R23): raised by `hostWrite` and
  `hostRead`. Safe: the spec says the model refuses it. -/
  | registerAccessWidth
  /-- A register access not aligned to 4 bytes from `REG_BASE` (`10_state.md` R23): raised by
  `hostWrite` and `hostRead`. Safe: the spec says the model refuses it. -/
  | registerAccessAlignment
  /-- A register access outside the 64-byte window, which the block does not decode
  (`10_state.md` R15): raised by `hostWrite` and `hostRead`. Safe (`notes/assumptions/11.md`). -/
  | registerAccessOutsideWindow
  /-- A LEN or XFW launch whose region runs past 2^32 (`20_memory.md` R43 item 1): raised by LEN and
  XFW. Safe: the spec says the model refuses the launch. -/
  | launchWraps
  /-- A launch that reaches an address not admitted (`20_memory.md` R43 item 2): raised by LEN and
  XFW. Safe: the spec says the model refuses the launch. -/
  | launchNotAdmitted
  /-- An XFW launch whose input and output regions share a byte (`20_memory.md` R43 item 3): raised
  by XFW. Safe: the spec says the model refuses the launch. -/
  | launchOverlap
  /-- A launch on a region with side effects (`20_memory.md` R41, R43 item 4): raised by LEN and XFW.
  Safe: the spec says the model refuses the launch. -/
  | launchSideEffects
  /-- A host write to the input or output region of a running scan (`70_reset_and_hazards.md` R115):
  raised by `memWrite`. Safe: the spec says the model has no host move for it. -/
  | hostWriteDuringScan
  /-- A host access where host memory does not answer (`00_scope.md` R5 `MEM_ADMIT`): raised by
  `memWrite` and `memRead`. Safe (`notes/assumptions/15.md`). -/
  | hostAccessNotAdmitted
  /-- A host access to a region with side effects, whose device the spec does not describe: raised by
  `memWrite` and `memRead`. Safe (`notes/assumptions/15.md`). -/
  | hostAccessSideEffects
deriving DecidableEq, Repr

/-- The machine: the registers and scan context of the block (`10_state.md` R14), host memory
(`20_memory.md` R33), the open parameters (`00_scope.md` R5), and three fields of the model's own:
`pending`, the moves to come, `reads`, what host reads have returned, and `draws`, the number of free
bytes drawn. -/
structure State where
  /-- CMD (`10_state.md` R16). -/
  cmd : Word
  /-- ARG0 (`10_state.md` R17). -/
  arg0 : Word
  /-- ARG1 (`10_state.md` R18). -/
  arg1 : Word
  /-- ARG2 (`10_state.md` R19). -/
  arg2 : Word
  /-- RES0 (`10_state.md` R20). -/
  res0 : Word
  /-- RES1 (`10_state.md` R20). -/
  res1 : Word
  /-- STATUS (`10_state.md` R21): BUSY in bit 0, ERR in bits 2:1, the rest hard-wired 0. -/
  status : Word
  /-- The scan context, present while a scan runs (`10_state.md` R28). -/
  scan : Option ScanCtx
  /-- Host memory (`20_memory.md` R33). -/
  mem : Memory
  /-- The open parameters (`00_scope.md` R5). -/
  plat : Platform
  /-- The moves still to come, the next one first (`notes/assumptions/1.md`). -/
  pending : List Move
  /-- The values host reads have returned, oldest first (`notes/assumptions/7.md`). -/
  reads : List HostValue
  /-- How many free bytes have been drawn (`notes/assumptions/6.md`). -/
  draws : Nat
deriving DecidableEq, Repr

/-- The machine right after reset (`10_state.md` R30): every register 0, no scan. Host memory lists
nothing. DESIGN CHOICE: the platform's open parameters stand at a window at address 0 and memory that
answers at every address (`notes/assumptions/5.md`), and the model's own fields are empty or 0. -/
def State.reset : State where
  cmd := 0
  arg0 := 0
  arg1 := 0
  arg2 := 0
  res0 := 0
  res1 := 0
  status := 0
  scan := none
  mem := []
  plat :=
    { regBase := 0
      map := [{ base := 0, size := 2 ^ 32, kind := .memory }] }
  pending := []
  reads := []
  draws := 0

end Sys2Proof.Machine
end

