-- ==== Sys2Proof/Machine/Flags.lean ====
section
/-! DEFINITION. STATUS and its two fields: the only flags of the block (`10_state.md` R21, R27). -/

namespace Sys2Proof.Machine

/-- The two-bit code of an ERR value (`10_state.md` R21). -/
def Err.code : Err → BitVec 2
  | .none => 0
  | .outOfRange => 1
  | .invalid => 2
  | .illegalCmd => 3

/-- STATUS.BUSY, bit 0 (`10_state.md` R21). -/
def busyField (status : Word) : Bool := status.getLsbD 0

/-- STATUS.ERR, bits 2:1 (`10_state.md` R21). -/
def errField (status : Word) : BitVec 2 := status.extractLsb' 1 2

/-- STATUS from its fields: bits 31:3 are hard-wired 0 (`10_state.md` R21). -/
def packStatus (busy : Bool) (err : BitVec 2) : Word :=
  (0 : BitVec 29) ++ err ++ BitVec.ofBool busy

/-- What a host read of STATUS returns: the two fields, and 0 in the hard-wired bits
(`10_state.md` R21). -/
def statusView (status : Word) : Word := packStatus (busyField status) (errField status)

/-- `STATUS.ERR <- e`, BUSY as it was (`00_scope.md` R8 `signal`). -/
def withErr (status : Word) (e : Err) : Word := packStatus (busyField status) e.code

/-- `STATUS.BUSY <- b`, ERR as it was (`10_state.md` R31). -/
def withBusy (status : Word) (b : Bool) : Word := packStatus b (errField status)

/-- Whether a scan command runs, as the host sees it: STATUS.BUSY (`10_state.md` R31). -/
def State.busy (s : State) : Bool := busyField s.status

/-- STATUS.ERR (`10_state.md` R27). -/
def State.err (s : State) : BitVec 2 := errField s.status

end Sys2Proof.Machine
end

