-- ==== Sys2Proof/Machine/Operands.lean ====
section
/-! DEFINITION. Every operand and result form of the commands (`30_encoding.md` R55) and the one
place where byte order is decided (`20_memory.md` R35, R36). -/

namespace Sys2Proof.Machine

/-- Byte k of a 32-bit value, bits [8k+7:8k] (`20_memory.md` R35, R36). -/
def byteOf (w : Word) (k : Nat) : Byte := w.extractLsb' (8 * k) 8

/-- The bytes of a list packed in a register, byte k in bits [8k+7:8k] and the rest 0: the sum of
`bytes[k] << (8*k)` (`41_encoder.md` R71, `20_memory.md` R35). -/
def pack : List Byte → Nat
  | [] => 0
  | b :: rest => b.toNat + (pack rest <<< 8)

/-- The four bytes of a 32-bit value, in the order memory and units hold them, byte 0 first
(`20_memory.md` R35, R36). -/
def bytesOf (w : Word) : List Byte := [byteOf w 0, byteOf w 1, byteOf w 2, byteOf w 3]

/-- v as a 32-bit value (`00_scope.md` R7 `zext_32`; every value a rule gives it is below 2^32). -/
def zext32 (v : Nat) : Word := BitVec.ofNat 32 v

/-- The k-th 6-bit payload chunk of c, from the least significant (`00_scope.md` R7 `chunk`). -/
def chunk (c k : Nat) : Nat := (c >>> (6 * k)) &&& 0x3F

/-- The 4-byte window the decoder is given (`42_decoder.md` R74). -/
structure Window where
  b0 : Byte
  b1 : Byte
  b2 : Byte
  b3 : Byte
deriving DecidableEq, Repr

/-- The bytes of a window, the lead byte first. -/
def Window.toList (win : Window) : List Byte := [win.b0, win.b1, win.b2, win.b3]

/-- The byte operand of CLS and CEXT: ARG0[7:0], ARG0[31:8] ignored (`30_encoding.md` R55). -/
def byteOperand (s : State) : Byte := byteOf s.arg0 0

/-- The code point operand of ENC: all of ARG0, unsigned (`30_encoding.md` R55, `41_encoder.md` R70). -/
def codePointOperand (s : State) : Nat := s.arg0.toNat

/-- The window operand of DEC: the bytes of ARG0 (`42_decoder.md` R82, `20_memory.md` R35). -/
def windowOperand (s : State) : Window :=
  ⟨byteOf s.arg0 0, byteOf s.arg0 1, byteOf s.arg0 2, byteOf s.arg0 3⟩

/-- The operands of a scan command as they are latched at issue: base = ARG0, n = ARG1, out = ARG2,
and the cursor and count at their start (`10_state.md` R28, `43_scanners.md` R85). -/
def scanOperands (kind : ScanKind) (s : State) : ScanCtx :=
  { kind, base := s.arg0, n := s.arg1, out := s.arg2, cursor := 0, count := 0 }

end Sys2Proof.Machine
end

