-- ==== Sys2Proof/Machine/Ops.lean ====
section
/-! DEFINITION. The named operations over host memory, the registers, the scan context and the
platform's map. An error is `signal` and nothing more: the block has no trap to enter or to return
from (`60_exceptions.md` R98, R104, R105), so `State.signal` and `illegalCommand` are the whole of
what taking an exception is here. -/

namespace Sys2Proof.Machine

/-! ## Host memory (`20_memory.md` R33, R34, R36) -/

/-- `MemRead(a, 1)`: the byte of host memory at address a (`20_memory.md` R34). -/
def Memory.read : Memory → Nat → Byte
  | [], _ => Config.unwritten
  | (b, v) :: rest, a => if a = b then v else Memory.read rest a

/-- One byte written at address a. The list keeps its canonical form: writing what an unlisted byte
reads as takes the entry out. -/
def Memory.write : Memory → Nat → Byte → Memory
  | [], a, v => if v = Config.unwritten then [] else [(a, v)]
  | (b, w) :: rest, a, v =>
    if a < b then (if v = Config.unwritten then (b, w) :: rest else (a, v) :: (b, w) :: rest)
    else if a = b then (if v = Config.unwritten then rest else (a, v) :: rest)
    else (b, w) :: Memory.write rest a v

/-- Bytes written at `a`, `a+1`, ... in order. -/
def Memory.writeBytes : Memory → Nat → List Byte → Memory
  | m, _, [] => m
  | m, a, v :: rest => Memory.writeBytes (Memory.write m a v) (a + 1) rest

/-- `MemWrite(a, 4, v)`: the four bytes of v, little-endian (`20_memory.md` R34, R36). -/
def Memory.writeWord (m : Memory) (a : Nat) (v : Word) : Memory :=
  Memory.writeBytes m a (bytesOf v)

/-- The 32-bit little-endian word a host sees at address a (`20_memory.md` R38). -/
def Memory.readWord (m : Memory) (a : Nat) : Word :=
  zext32 (pack [Memory.read m a, Memory.read m (a + 1), Memory.read m (a + 2), Memory.read m (a + 3)])

/-- `len` free bytes written from address a, the draw numbered k first: "any value in every byte"
(`70_reset_and_hazards.md` R114). -/
def Memory.writeFree : Memory → Nat → Nat → Nat → Memory
  | m, _, _, 0 => m
  | m, a, k, len + 1 => Memory.writeFree (Memory.write m a (Config.freeByte k)) (a + 1) (k + 1) len

/-- Addresses strictly rising and no entry equal to what an unlisted byte reads as: the canonical
form of host memory. -/
def Memory.wf : Memory → Bool
  | [] => true
  | (a, v) :: rest => v != Config.unwritten && rest.all (fun c => decide (a < c.1)) && Memory.wf rest

/-! ## The platform's map (`00_scope.md` R5, `20_memory.md` R41, R45) -/

/-- Whether a region covers an address. -/
def Region.covers (r : Region) (a : Nat) : Bool := decide (r.base ≤ a) && decide (a < r.base + r.size)

/-- `MEM_ADMIT(a)`: host memory answers an access at address a (`00_scope.md` R5). -/
def Platform.admits (p : Platform) (a : Nat) : Bool := p.map.any (fun r => r.covers a)

/-- Whether an access at address a has a side effect (`20_memory.md` R41). -/
def Platform.hasSideEffect (p : Platform) (a : Nat) : Bool :=
  p.map.any (fun r => r.kind == .sideEffect && r.covers a)

/-- A byte range of host memory: `len` bytes from `start`. -/
structure Span where
  start : Nat
  len : Nat
deriving DecidableEq, Repr

/-- Whether a range holds an address. -/
def Span.holds (r : Span) (a : Nat) : Bool := decide (r.start ≤ a) && decide (a < r.start + r.len)

/-- Whether two ranges share a byte (`20_memory.md` R43 item 3). -/
def Span.overlaps (r q : Span) : Bool :=
  decide (max r.start q.start < min (r.start + r.len) (q.start + q.len))

/-- Whether a range stays inside the 2^32 bytes of host memory (`20_memory.md` R43 item 1). -/
def Span.inSpace (r : Span) : Bool := decide (r.start + r.len ≤ Config.memSize)

/-- Whether every address of a range is admitted (`20_memory.md` R43 item 2). -/
def Platform.admitsAll (p : Platform) (r : Span) : Bool :=
  (List.range r.len).all (fun k => p.admits (r.start + k))

/-- Whether some address of a range has a side effect (`20_memory.md` R43 item 4). -/
def Platform.sideEffectIn (p : Platform) (r : Span) : Bool :=
  (List.range r.len).any (fun k => p.hasSideEffect (r.start + k))

/-! ## The regions and launch conditions of a scan (`20_memory.md` R33, R43) -/

/-- The input region: n bytes at base (`20_memory.md` R33). -/
def ScanCtx.input (c : ScanCtx) : Span := ⟨c.base.toNat, c.n.toNat⟩

/-- The output region of XFW: 4·n bytes at out (`20_memory.md` R33). -/
def ScanCtx.output (c : ScanCtx) : Span := ⟨c.out.toNat, 4 * c.n.toNat⟩

/-- The regions a scan reaches: XFW also writes its output region (`20_memory.md` R33). -/
def ScanCtx.regions (c : ScanCtx) : List Span :=
  match c.kind with
  | .len => [c.input]
  | .xfw => [c.input, c.output]

/-- Which launch condition of `20_memory.md` R43 fails, if one does, taken in the rule's order
(`notes/assumptions/12.md`). -/
def launchProblem (p : Platform) (c : ScanCtx) : Option Refusal :=
  if c.regions.any (fun r => !r.inSpace) then some .launchWraps
  else if c.regions.any (fun r => !p.admitsAll r) then some .launchNotAdmitted
  else if c.kind = .xfw ∧ c.input.overlaps c.output = true then some .launchOverlap
  else if c.regions.any (fun r => p.sideEffectIn r) then some .launchSideEffects
  else none

/-! ## The registers (`10_state.md` R15 to R25) -/

/-- `signal E` and `STATUS.ERR <- E`: ERR takes the code, BUSY stays as it was
(`00_scope.md` R8, `10_state.md` R27). -/
def State.signal (s : State) (e : Err) : State := { s with status := withErr s.status e }

/-- RES0 and RES1 written by a completing command (`10_state.md` R20). -/
def State.writeResults (s : State) (r0 r1 : Word) : State := { s with res0 := r0, res1 := r1 }

/-- CMD stores the whole written word (`10_state.md` R16, R32). -/
def State.storeCmd (s : State) (w : Word) : State := { s with cmd := w }

/-- A scan starts: its context is held and BUSY is 1 (`10_state.md` R28, R31). -/
def State.startScan (s : State) (c : ScanCtx) : State :=
  { s with scan := some c, status := withBusy s.status true }

/-- A scan ends: its context is dropped and BUSY is 0 (`10_state.md` R28, R31). -/
def State.endScan (s : State) : State := { s with scan := none, status := withBusy s.status false }

/-- Host memory replaced. -/
def State.setMem (s : State) (m : Memory) : State := { s with mem := m }

/-- A value returned to the host (`30_encoding.md` R59 `RD`). -/
def State.logRead (s : State) (v : HostValue) : State := { s with reads := s.reads ++ [v] }

/-- k free bytes drawn (`notes/assumptions/6.md`). -/
def State.drawn (s : State) (k : Nat) : State := { s with draws := s.draws + k }

/-- The moves to come replaced. -/
def State.withPending (s : State) (l : List Move) : State := { s with pending := l }

/-- The register at a byte offset of the window that is a multiple of 4 (`10_state.md` R15, R22). -/
def regAt (off : Nat) : Reg :=
  match off with
  | 0x00 => .cmd
  | 0x04 => .arg0
  | 0x08 => .arg1
  | 0x0C => .arg2
  | 0x10 => .res0
  | 0x14 => .res1
  | 0x18 => .status
  | _ => .reserved

/-- What a host read of a register returns (`10_state.md` R15): its value, 0 in the hard-wired bits
of STATUS (R21) and 0 at the reserved offsets (R22). -/
def State.readReg (s : State) (r : Reg) : Word :=
  match r with
  | .cmd => s.cmd
  | .arg0 => s.arg0
  | .arg1 => s.arg1
  | .arg2 => s.arg2
  | .res0 => s.res0
  | .res1 => s.res1
  | .status => statusView s.status
  | .reserved => 0

/-- A host write to a register other than CMD, where it changes anything: ARG0..ARG2 take the value
unless a scan runs (`10_state.md` R17 to R19, R24); RES0, RES1, STATUS and the reserved offsets ignore
it (R20, R21, R22). A write to CMD is `issue` (R16) and not this. -/
def State.writeReg (s : State) (r : Reg) (v : Word) : State :=
  if s.busy then s
  else match r with
    | .arg0 => { s with arg0 := v }
    | .arg1 => { s with arg1 := v }
    | .arg2 => { s with arg2 := v }
    | .cmd => s
    | .res0 => s
    | .res1 => s
    | .status => s
    | .reserved => s

/-- An illegal command word: ERR = ILLEGAL_CMD and nothing else (`60_exceptions.md` R99; CMD already
holds the word). -/
def illegalCommand (s : State) : State := s.signal .illegalCmd

/-- The block's registers and scan context at their reset values; host memory, the platform and the
model's own fields as they were (`10_state.md` R30, `70_reset_and_hazards.md` R113;
`notes/assumptions/14.md`). -/
def State.resetRegisters (s : State) : State :=
  { s with cmd := 0, arg0 := 0, arg1 := 0, arg2 := 0, res0 := 0, res1 := 0, status := 0, scan := none }

/-- Reset. One that ends a running XFW leaves any value in every byte of its output region
(`70_reset_and_hazards.md` R113, R114; `notes/assumptions/6.md`). -/
def State.resetBlock (s : State) : State :=
  match s.scan with
  | none => s.resetRegisters
  | some c =>
    match c.kind with
    | .len => s.resetRegisters
    | .xfw =>
      ((s.setMem (s.mem.writeFree c.output.start s.draws c.output.len)).drawn
        c.output.len).resetRegisters

end Sys2Proof.Machine
end

