-- ==== Sys2Proof/Machine/Encoder.lean ====
section
/-! DEFINITION. The encoder of code points and the command ENC (`41_encoder.md`). -/

namespace Sys2Proof.Machine

/-- The result of encoding (`00_scope.md` R8). -/
inductive EncodeResult where
  | ok (bytes : List Byte) (w : Nat)
  | outOfRange
deriving DecidableEq, Repr

/-- `widthOf(c)`: the width of the unit for code point c, none above `CP_MAX` (`41_encoder.md` R68). -/
def widthOf (c : Nat) : Option Nat :=
  if c > Config.cpMax then none
  else if c ≤ 127 then some 1
  else if c ≤ 2047 then some 2
  else if c ≤ 65535 then some 3
  else some 4

/-- A lead byte: its tag above the lead payload (`30_encoding.md` R58). -/
def leadByte (tag leadPayload : Nat) : Byte := BitVec.ofNat 8 (tag ||| leadPayload)

/-- The continuation byte of c's k-th chunk (`30_encoding.md` R58). -/
def contByte (c k : Nat) : Byte := BitVec.ofNat 8 (0x80 ||| chunk c k)

/-- `encodeFn(c)`: the unit of code point c, most significant chunk first, or OutOfRange
(`41_encoder.md` R69, R70; the unit table is `30_encoding.md` R58). -/
def encodeFn (c : Nat) : EncodeResult :=
  if c > Config.cpMax then .outOfRange
  else if c ≤ 127 then .ok [leadByte 0 c] 1
  else if c ≤ 2047 then .ok [leadByte 0xC0 (c >>> 6), contByte c 0] 2
  else if c ≤ 65535 then .ok [leadByte 0xE0 (c >>> 12), contByte c 1, contByte c 0] 3
  else .ok [leadByte 0xF0 (c >>> 18), contByte c 2, contByte c 1, contByte c 0] 4

/-- ENC: RES0 = the unit's bytes, RES1 = its width, ERR = NONE; on OutOfRange only ERR is written
(`41_encoder.md` R71, R72, R73). -/
def execEnc (s : State) : Host.Outcome State Fault Refusal :=
  match encodeFn (codePointOperand s) with
  | .ok bytes w => .next ((s.writeResults (zext32 (pack bytes)) (zext32 w)).signal .none)
  | .outOfRange => .next (s.signal .outOfRange)

end Sys2Proof.Machine
end

