-- ==== Sys2Proof/Machine/Classifier.lean ====
section
/-! DEFINITION. The lead-byte classifier and the continuation-byte extractor, with the commands CLS
and CEXT (`40_classifier.md`). -/

namespace Sys2Proof.Machine

/-- The six classes of a byte (`40_classifier.md` R61). -/
inductive ByteClass where
  | cont | single | lead2 | lead3 | lead4 | invalid
deriving DecidableEq, Repr

/-- `classify(b)`: the class of a byte, from its top bits (`40_classifier.md` R61). -/
def classify (b : Byte) : ByteClass :=
  if b.extractLsb' 7 1 = 0b0 then .single
  else if b.extractLsb' 6 2 = 0b10 then .cont
  else if b.extractLsb' 5 3 = 0b110 then .lead2
  else if b.extractLsb' 4 4 = 0b1110 then .lead3
  else if b.extractLsb' 3 5 = 0b11110 then .lead4
  else .invalid

/-- The class code CLS reports (`40_classifier.md` R61). -/
def classCode : ByteClass → Nat
  | .cont => 0
  | .single => 1
  | .lead2 => 2
  | .lead3 => 3
  | .lead4 => 4
  | .invalid => 7

/-- `claimedWidth(cls)`: the width a lead pattern claims (`40_classifier.md` R63). -/
def claimedWidth : ByteClass → Option Nat
  | .single => some 1
  | .lead2 => some 2
  | .lead3 => some 3
  | .lead4 => some 4
  | .cont => none
  | .invalid => none

/-- `contPayload(b)`: the 6 payload bits of a continuation byte (`40_classifier.md` R64). -/
def contPayload (b : Byte) : Nat := (b.extractLsb' 0 6).toNat

/-- `payload(b)`: the bits below the tag of a byte, for its class (`40_classifier.md` R64). -/
def payload (b : Byte) : Nat :=
  match classify b with
  | .single => (b.extractLsb' 0 7).toNat
  | .cont => contPayload b
  | .lead2 => (b.extractLsb' 0 5).toNat
  | .lead3 => (b.extractLsb' 0 4).toNat
  | .lead4 => (b.extractLsb' 0 3).toNat
  | .invalid => 0

/-- CLS: RES0 = the class code, RES1 = the payload, ERR = NONE (`40_classifier.md` R66). -/
def execCls (s : State) : Host.Outcome State Fault Refusal :=
  let b := byteOperand s
  .next ((s.writeResults (zext32 (classCode (classify b))) (zext32 (payload b))).signal .none)

/-- CEXT: RES0 = the payload of a continuation byte and ERR = NONE; on any other byte RES0 = 0 and
ERR = INVALID; RES1 = 0 (`40_classifier.md` R67). -/
def execCext (s : State) : Host.Outcome State Fault Refusal :=
  let b := byteOperand s
  if classify b = .cont then .next ((s.writeResults (zext32 (contPayload b)) 0).signal .none)
  else .next ((s.writeResults 0 0).signal .invalid)

end Sys2Proof.Machine
end

