-- ==== Sys2Proof/Machine/Decoder.lean ====
section
/-! DEFINITION. The decoder of units and the command DEC (`42_decoder.md`). -/

namespace Sys2Proof.Machine

/-- The decode result, a tagged outcome (`00_scope.md` R9). -/
inductive DecodeResult where
  | ok (cp w : Nat)
  | invalid
deriving DecidableEq, Repr

/-- The smallest value a unit of width w may decode to (`42_decoder.md` R74, R78). -/
def minOf (w : Nat) : Nat :=
  if w = 2 then 128 else if w = 3 then 2048 else if w = 4 then 65536 else 0

/-- Step 4: the payload of the lead, then each continuation byte's 6 bits, in byte order
(`42_decoder.md` R77). -/
def reassemble (lead : Byte) (conts : List Byte) : Nat :=
  conts.foldl (fun v b => (v <<< 6) ||| contPayload b) (payload lead)

/-- Steps 3 to 7 for a lead that claims w > 1 bytes: the continuation check, the reassembly, the
overlong check and the maximum check (`42_decoder.md` R76 to R79). -/
def decodeMulti (win : Window) (w : Nat) : DecodeResult :=
  let conts := [win.b1, win.b2, win.b3].take (w - 1)
  if conts.all (fun b => classify b == .cont) then
    let v := reassemble win.b0 conts
    if v < minOf w then .invalid
    else if w = 4 ∧ v > Config.cpMax then .invalid
    else .ok v w
  else .invalid

/-- `decodeFn(win)` (`42_decoder.md` R74): the class of byte 0 decides (R75), then `decodeMulti`. -/
def decodeFn (win : Window) : DecodeResult :=
  match classify win.b0 with
  | .single => .ok win.b0.toNat 1
  | .cont => .invalid
  | .invalid => .invalid
  | .lead2 => decodeMulti win 2
  | .lead3 => decodeMulti win 3
  | .lead4 => decodeMulti win 4

/-- DEC: RES0 = the code point, RES1 = its width, ERR = NONE; on Invalid RES0 = RES1 = 0 and
ERR = INVALID (`42_decoder.md` R82, R83). -/
def execDec (s : State) : Host.Outcome State Fault Refusal :=
  match decodeFn (windowOperand s) with
  | .ok cp w => .next ((s.writeResults (zext32 cp) (zext32 w)).signal .none)
  | .invalid => .next ((s.writeResults 0 0).signal .invalid)

end Sys2Proof.Machine
end

