-- ==== Sys2Proof/Machine/Scanners.lean ====
section
/-! DEFINITION. The scan function, the commands LEN and XFW, and the completion of their scans
(`43_scanners.md`). -/

namespace Sys2Proof.Machine

/-- What one turn of the scan loop reads and writes: the cursor, the count and host memory
(`43_scanners.md` R85). -/
structure ScanLoop where
  p : Nat
  count : Nat
  mem : Memory
deriving DecidableEq, Repr

/-- The window of a unit of width w at address a, padded to 4 bytes with 0x00; no byte at or past
a+w is read (`43_scanners.md` R85; `notes/assumptions/17.md`). -/
def scanWindow (m : Memory) (a w : Nat) : Window :=
  { b0 := m.read a
    b1 := if 1 < w then m.read (a + 1) else 0
    b2 := if 2 < w then m.read (a + 2) else 0
    b3 := if 3 < w then m.read (a + 3) else 0 }

/-- One turn of the loop (`43_scanners.md` R85): a byte that is no lead pattern is skipped alone
(R88), a truncated unit ends the scan (R86), a valid unit is emitted and counted, and a valid or
invalid unit is passed by its claimed width (R87). -/
def scanTurn (emit : Nat → Nat → Memory → Memory) (base n : Nat) (l : ScanLoop) : ScanLoop :=
  match claimedWidth (classify (l.mem.read (base + l.p))) with
  | none => { l with p := l.p + 1 }
  | some w =>
    if l.p + w > n then { l with p := n }
    else match decodeFn (scanWindow l.mem (base + l.p) w) with
      | .ok cp _ => { p := l.p + w, count := l.count + 1, mem := emit l.count cp l.mem }
      | .invalid => { l with p := l.p + w }

/-- Turns of the loop while p < n, at most `fuel` of them. -/
def scanTurns (emit : Nat → Nat → Memory → Memory) (base n : Nat) : Nat → ScanLoop → ScanLoop
  | 0, l => l
  | fuel + 1, l => if l.p < n then scanTurns emit base n fuel (scanTurn emit base n l) else l

/-- `scanFn(base, n, emit)`, taken up at a loop state. Each turn makes p larger, so n - p turns end
the loop (`43_scanners.md` R85, R93). -/
def scanFn (emit : Nat → Nat → Memory → Memory) (base n : Nat) (l : ScanLoop) : ScanLoop :=
  scanTurns emit base n (n - l.p) l

/-- LEN emits nothing (`43_scanners.md` R89). -/
def emitNothing (_ _ : Nat) (m : Memory) : Memory := m

/-- XFW emits the k-th code point as the word in slot k of the output array
(`43_scanners.md` R90, R91). -/
def emitSlot (out : Nat) (k cp : Nat) (m : Memory) : Memory :=
  m.writeWord (out + 4 * k) (zext32 cp)

/-- What a completing scan does at each valid unit (`43_scanners.md` R89, R90). -/
def ScanCtx.emit (c : ScanCtx) : Nat → Nat → Memory → Memory :=
  match c.kind with
  | .len => emitNothing
  | .xfw => emitSlot c.out.toNat

/-- The loop of a scan run to its end from the context's cursor and count. -/
def ScanCtx.run (c : ScanCtx) (m : Memory) : ScanLoop :=
  scanFn c.emit c.base.toNat c.n.toNat { p := c.cursor, count := c.count, mem := m }

/-- The completion of a scan, one step of the engine: XFW's writes, RES0 = the count, RES1 = 0,
ERR = NONE, BUSY = 0 and the context dropped (`43_scanners.md` R89, R90; `10_state.md` R28, R31;
`70_reset_and_hazards.md` R120). -/
def completeScan (c : ScanCtx) (s : State) : State :=
  let r := c.run s.mem
  (((s.setMem r.mem).writeResults (zext32 r.count) 0).signal .none).endScan

/-- The scan engine's step: the running scan completes; with no scan there is nothing to do
(`70_reset_and_hazards.md` R120). -/
def engineStep (s : State) : State :=
  match s.scan with
  | none => s
  | some c => completeScan c s

/-- The issue of a scan command: the operands are latched and BUSY is 1, where the launch conditions
of `20_memory.md` R43 hold; else the launch is refused (`43_scanners.md` R89, R90). -/
def issueScan (kind : ScanKind) (s : State) : Host.Outcome State Fault Refusal :=
  let c := scanOperands kind s
  match launchProblem s.plat c with
  | some r => .refused r
  | none => .next (s.startScan c)

/-- LEN, issued: its scan completes by `engineStep` (`43_scanners.md` R89). -/
def execLen (s : State) : Host.Outcome State Fault Refusal := issueScan .len s

/-- XFW, issued: its scan completes by `engineStep` (`43_scanners.md` R90). -/
def execXfw (s : State) : Host.Outcome State Fault Refusal := issueScan .xfw s

end Sys2Proof.Machine
end

