-- ==== Sys2Proof/Machine/Dispatch.lean ====
section
/-! DEFINITION. One arm for each command (`30_encoding.md` R53). -/

namespace Sys2Proof.Machine

def exec (i : Instr) (s : State) : Host.Outcome State Fault Refusal :=
  match i with
  | .cls => Sys2Proof.Machine.execCls s
  | .cext => Sys2Proof.Machine.execCext s
  | .enc => Sys2Proof.Machine.execEnc s
  | .dec => Sys2Proof.Machine.execDec s
  | .len => Sys2Proof.Machine.execLen s
  | .xfw => Sys2Proof.Machine.execXfw s

end Sys2Proof.Machine
end

