-- ==== Sys2Proof/Machine/HostPort.lean ====
section
/-! DEFINITION. The moves around the block: command issue, register accesses, host accesses to host
memory, WAIT, the engine's step and reset. Each acts on a state whose `pending` no longer holds the
move. -/

namespace Sys2Proof.Machine

/-- Issue of a word, BUSY = 0: CMD stores it; a legal word runs its command, any other completes with
ILLEGAL_CMD (`30_encoding.md` R54, `60_exceptions.md` R99). -/
def issue (w : Word) (s : State) : Host.Outcome State Fault Refusal :=
  match decode w with
  | .ok i => exec i (s.storeCmd w)
  | .error _ => .next (illegalCommand (s.storeCmd w))

/-- Why an access at a host address with a width in bytes is no access to a register, if it is none:
outside the 64-byte window (`10_state.md` R15; `notes/assumptions/11.md`), not 32 bits wide, or not
aligned to 4 from `REG_BASE` (R23). -/
def registerAccessProblem (p : Platform) (addr width : Nat) : Option Refusal :=
  if addr < p.regBase ∨ p.regBase + Config.windowSize ≤ addr then some .registerAccessOutsideWindow
  else if width ≠ 4 then some .registerAccessWidth
  else if (addr - p.regBase) % 4 ≠ 0 then some .registerAccessAlignment
  else none

/-- The register a host address names (`10_state.md` R15). -/
def Platform.regOf (p : Platform) (addr : Nat) : Reg := regAt (addr - p.regBase)

/-- A host write of a register: to CMD an issue, lost while a scan runs (`10_state.md` R16, R24); to
any other `State.writeReg`. -/
def hostWriteReg (r : Reg) (v : Word) (s : State) : Host.Outcome State Fault Refusal :=
  if r = .cmd ∧ s.busy = false then issue v s else .next (s.writeReg r v)

/-- A host write in the register window (`10_state.md` R23). -/
def hostWrite (addr width : Nat) (v : Word) (s : State) : Host.Outcome State Fault Refusal :=
  match registerAccessProblem s.plat addr width with
  | some r => .refused r
  | none => hostWriteReg (s.plat.regOf addr) v s

/-- A host read in the register window: it returns the value and changes nothing of the block
(`10_state.md` R23, R25). -/
def hostRead (addr width : Nat) (s : State) : Host.Outcome State Fault Refusal :=
  match registerAccessProblem s.plat addr width with
  | some r => .refused r
  | none => .next (s.logRead (.word (s.readReg (s.plat.regOf addr))))

/-- Why a host access to a range of host memory stops, if it does: past the end of the space, where
host memory does not answer, or where an access has side effects (`notes/assumptions/15.md`,
`notes/assumptions/16.md`); otherwise `go`. -/
def hostMemAccess (r : Span) (s : State) (go : Host.Outcome State Fault Refusal) :
    Host.Outcome State Fault Refusal :=
  if r.inSpace = false then .fault .hostAddressOutOfSpace
  else if s.plat.admitsAll r = false then .refused .hostAccessNotAdmitted
  else if s.plat.sideEffectIn r = true then .refused .hostAccessSideEffects
  else go

/-- The regions the host may not write now: those of the running scan
(`70_reset_and_hazards.md` R115). -/
def State.guarded (s : State) : List Span :=
  match s.scan with
  | none => []
  | some c => c.regions

/-- Whether the contents of an address are not specified now: it lies in the output region of a
running XFW (`20_memory.md` R46 item 5). -/
def State.unspecifiedAt (s : State) (a : Nat) : Bool :=
  match s.scan with
  | none => false
  | some c => c.kind == .xfw && c.output.holds a

/-- A host write of bytes of its memory. One that reaches a region of the running scan is refused
(`70_reset_and_hazards.md` R115). -/
def hostMemWrite (a : Nat) (bytes : List Byte) (s : State) : Host.Outcome State Fault Refusal :=
  hostMemAccess ⟨a, bytes.length⟩ s
    (if s.guarded.any (fun r => r.overlaps ⟨a, bytes.length⟩) then .refused .hostWriteDuringScan
     else .next (s.setMem (s.mem.writeBytes a bytes)))

/-- The byte a host read of address a returns, as the k-th byte of its read: a free byte where the
contents are not specified (`20_memory.md` R46 item 5). -/
def State.hostByte (s : State) (a k : Nat) : Byte :=
  if s.unspecifiedAt (a + k) then Config.freeByte (s.draws + k) else s.mem.read (a + k)

/-- A host read of `count` bytes of its memory; each byte may have drawn a free byte
(`20_memory.md` R38, R46; `notes/assumptions/6.md`). -/
def hostMemRead (a count : Nat) (s : State) : Host.Outcome State Fault Refusal :=
  hostMemAccess ⟨a, count⟩ s
    (.next ((s.logRead (.bytes ((List.range count).map (s.hostByte a)))).drawn count))

/-- One read of STATUS by the polling loop WAIT. -/
def pollStatus (s : State) : State := s.logRead (.word (s.readReg .status))

/-- WAIT (`30_encoding.md` R60): while BUSY = 1 it reads STATUS again, `polls` times before the engine
completes the scan; when BUSY = 0 one last read ends it (`notes/assumptions/3.md`). -/
def waitPoll (polls : Nat) (s : State) : Host.Outcome State Fault Refusal :=
  if s.busy then
    match polls with
    | 0 => .next ((engineStep s).withPending (.wait 0 :: s.pending))
    | k + 1 => .next ((pollStatus s).withPending (.wait k :: s.pending))
  else .next (pollStatus s)

/-- One move, `s.pending` holding only the moves after it. -/
def makeMove (m : Move) (s : State) : Host.Outcome State Fault Refusal :=
  match m with
  | .hostWrite addr width v => hostWrite addr width v s
  | .hostRead addr width => hostRead addr width s
  | .memWrite a bytes => hostMemWrite a bytes s
  | .memRead a count => hostMemRead a count s
  | .wait polls => waitPoll polls s
  | .engine => .next (engineStep s)
  | .reset => .next s.resetBlock

/-- The next move when none is pending: a running scan completes, since it does so after finitely
many other steps, and an idle block stays as it is (`70_reset_and_hazards.md` R120,
`60_exceptions.md` R112; `notes/assumptions/2.md`). -/
def idleMove (s : State) : Host.Outcome State Fault Refusal := .next (engineStep s)

end Sys2Proof.Machine
end

