-- ==== Sys2Proof/Machine/Step.lean ====
section
/-! DEFINITION. One step of the machine: the next pending move. The block fetches no instructions
(`10_state.md` R26); a command arrives as a host write of CMD. -/

namespace Sys2Proof.Machine

/-- One step: the first pending move, or what happens when none is pending. -/
def step (s : State) : Host.Outcome State Fault Refusal :=
  match s.pending with
  | [] => idleMove s
  | m :: rest => makeMove m (s.withPending rest)

/-- s with the command word made of the low `nbits` bits of w as the next host write to CMD, and no
scan running, so that the very next step issues it (`30_encoding.md` R54, `10_state.md` R24;
`notes/assumptions/1.md`). -/
def State.withFetchWord (s : State) (nbits w : Nat) : State :=
  s.endScan.withPending
    (.hostWrite s.plat.regBase 4 (BitVec.ofNat 32 (w % 2 ^ nbits)) :: s.pending)

end Sys2Proof.Machine
end

