-- ==== Sys2Proof/Safety.lean ====
section
/-! DEFINITION. What a good state and an ended run are, in the terms the statements use. -/

namespace Sys2Proof.Machine

/-- The command a scan context was latched from. -/
def ScanKind.instr : ScanKind → Instr
  | .len => .len
  | .xfw => .xfw

/-- What holds of a running scan's context: it still agrees with the registers it was latched from,
since writes to them are ignored while BUSY = 1 (`10_state.md` R24, R28); it met the launch conditions
(`20_memory.md` R43); and 0 <= p <= n with no more units counted than bytes passed
(`10_state.md` R28, `43_scanners.md` R95). -/
structure ScanCtx.Latched (c : ScanCtx) (s : State) : Prop where
  cmd : s.cmd = encode c.kind.instr
  base : c.base = s.arg0
  n : c.n = s.arg1
  out : c.out = s.arg2
  launch : launchProblem s.plat c = none
  cursor : c.cursor ≤ c.n.toNat
  count : c.count ≤ c.cursor

/-- The invariant every step keeps: host memory in its canonical form and inside its 2^32 bytes, the
hard-wired bits of STATUS 0 (`10_state.md` R21), BUSY = 1 exactly while a scan context is held (R31),
and that context as latched (R28). -/
structure State.Inv (s : State) : Prop where
  memWf : s.mem.wf = true
  memInSpace : ∀ c ∈ s.mem, c.1 < Config.memSize
  statusReserved : s.status.toNat < 8
  busyIffScan : s.busy = s.scan.isSome
  latched : ∀ c, s.scan = some c → c.Latched s

/-- The end of a run: no move pending and BUSY = 0 (`70_reset_and_hazards.md` R122). -/
def State.ended (s : State) : Prop := s.pending = [] ∧ s.busy = false

/-- How many steps a move can cost: a register write can start a scan, which completes later, and
WAIT polls. -/
def Move.work : Move → Nat
  | .hostWrite _ _ _ => 2
  | .hostRead _ _ => 1
  | .memWrite _ _ => 1
  | .memRead _ _ => 1
  | .wait polls => polls + 1
  | .engine => 1
  | .reset => 1

/-- A bound on the steps left before a run ends. -/
def State.work (s : State) : Nat :=
  (s.pending.map Move.work).sum + s.scan.isSome.toNat

/-- The code points a scan finds in bytes of memory from p on, in order, and the bytes of the units it
counts: the scan loop of `43_scanners.md` R85 with nothing written, at most `fuel` turns. -/
def validUnits (m : Memory) (base n : Nat) : Nat → Nat → List (Nat × List Byte)
  | 0, _ => []
  | fuel + 1, p =>
    if p < n then
      match claimedWidth (classify (m.read (base + p))) with
      | none => validUnits m base n fuel (p + 1)
      | some w =>
        if p + w > n then []
        else match decodeFn (scanWindow m (base + p) w) with
          | .ok cp _ =>
            (cp, (List.range w).map (fun k => m.read (base + p + k))) ::
              validUnits m base n fuel (p + w)
          | .invalid => validUnits m base n fuel (p + w)
    else []

/-- The code points of the valid units of an input region, in order of appearance
(`43_scanners.md` R91). -/
def codePointsOf (m : Memory) (input : Span) : List Nat :=
  (validUnits m input.start input.len input.len 0).map Prod.fst

/-- The input bytes with every invalid span removed (`43_scanners.md` R97). -/
def validBytesOf (m : Memory) (input : Span) : List Byte :=
  ((validUnits m input.start input.len input.len 0).map Prod.snd).flatten

/-- The bytes `encodeFn` gives for a code point, none above `CP_MAX` (`41_encoder.md` R69). -/
def unitBytes (c : Nat) : List Byte :=
  match encodeFn c with
  | .ok bytes _ => bytes
  | .outOfRange => []

/-- The input region as the operands give it (`20_memory.md` R33). -/
def inputOf (s : State) : Span := ⟨s.arg0.toNat, s.arg1.toNat⟩

/-- The output region as the operands give it (`20_memory.md` R33). -/
def outputOf (s : State) : Span := ⟨s.arg2.toNat, 4 * s.arg1.toNat⟩

/-- Items 1, 2 and 4 of the launch conditions for one region: it does not wrap, each of its addresses
is admitted, and none has a side effect (`20_memory.md` R43). -/
def Span.ready (p : Platform) (r : Span) : Prop :=
  r.start + r.len ≤ 2 ^ 32 ∧
    ∀ a, r.start ≤ a → a < r.start + r.len → p.admits a = true ∧ p.hasSideEffect a = false

/-- Item 3 of the launch conditions: two regions share no byte (`20_memory.md` R43). -/
def Span.disjoint (r q : Span) : Prop :=
  ∀ a, r.start ≤ a → a < r.start + r.len → q.start ≤ a → a < q.start + q.len → False

/-- The launch conditions of LEN (`43_scanners.md` R89). -/
def lenMayLaunch (s : State) : Prop := (inputOf s).ready s.plat

/-- The launch conditions of XFW (`43_scanners.md` R90). -/
def xfwMayLaunch (s : State) : Prop :=
  (inputOf s).ready s.plat ∧ (outputOf s).ready s.plat ∧ (inputOf s).disjoint (outputOf s)

/-- The code point and width of the unit at the start of four bytes, by the table of
`42_decoder.md` R80, row by row; none where no row matches. -/
def unitTable (b0 b1 b2 b3 : Nat) : Option (Nat × Nat) :=
  let cont (b : Nat) : Bool := decide (0x80 ≤ b) && decide (b ≤ 0xBF)
  let v2 := (b0 - 0xC0) * 64 + (b1 - 0x80)
  let v3 := (b0 - 0xE0) * 4096 + (b1 - 0x80) * 64 + (b2 - 0x80)
  let v4 := (b0 - 0xF0) * 262144 + (b1 - 0x80) * 4096 + (b2 - 0x80) * 64 + (b3 - 0x80)
  if b0 ≤ 0x7F then some (b0, 1)
  else if 0xC2 ≤ b0 ∧ b0 ≤ 0xDF ∧ cont b1 then some (v2, 2)
  else if b0 = 0xE0 ∧ 0xA0 ≤ b1 ∧ b1 ≤ 0xBF ∧ cont b2 then some (v3, 3)
  else if 0xE1 ≤ b0 ∧ b0 ≤ 0xEF ∧ cont b1 ∧ cont b2 then some (v3, 3)
  else if b0 = 0xF0 ∧ 0x90 ≤ b1 ∧ b1 ≤ 0xBF ∧ cont b2 ∧ cont b3 then some (v4, 4)
  else if 0xF1 ≤ b0 ∧ b0 ≤ 0xF3 ∧ cont b1 ∧ cont b2 ∧ cont b3 then some (v4, 4)
  else if b0 = 0xF4 ∧ 0x80 ≤ b1 ∧ b1 ≤ 0x8F ∧ cont b2 ∧ cont b3 then some (v4, 4)
  else none

/-- Byte k of a word, as a number (`20_memory.md` R35). -/
def byteNat (w : Word) (k : Nat) : Nat := w.toNat / 256 ^ k % 256

/-- What a command that is no scan leaves as it was: every register but RES0, RES1 and STATUS.ERR, the
scan context, the platform, every byte of memory, and the model's own fields. -/
structure ShortFrame (s t : State) : Prop where
  cmd : t.cmd = s.cmd
  arg0 : t.arg0 = s.arg0
  arg1 : t.arg1 = s.arg1
  arg2 : t.arg2 = s.arg2
  busy : t.busy = s.busy
  statusReserved : t.status.toNat < 8
  scan : t.scan = s.scan
  bytes : ∀ a, t.mem.read a = s.mem.read a
  plat : t.plat = s.plat
  pending : t.pending = s.pending
  reads : t.reads = s.reads
  draws : t.draws = s.draws

/-- What the completion of a scan leaves as it was: CMD and the operands, the platform and the model's
own fields. (RES0, RES1, STATUS and the context it writes; of memory, XFW writes the output.) -/
structure ScanFrame (s u : State) : Prop where
  cmd : u.cmd = s.cmd
  arg0 : u.arg0 = s.arg0
  arg1 : u.arg1 = s.arg1
  arg2 : u.arg2 = s.arg2
  plat : u.plat = s.plat
  pending : u.pending = s.pending
  reads : u.reads = s.reads
  draws : u.draws = s.draws

end Sys2Proof.Machine
end

