-- ==== Sys2Proof/Certificates/Slice0/Obligations.lean ====
section
/-! DEFINITION. The statements about the block, each from the numbered rules of `spec/`. -/

open Sys2Proof Sys2Proof.Machine

/-! ## Command words -/

/-- The opcode map (`30_encoding.md` R53): each of the sixteen words with RSVD = 0. -/
def Obligations.OpcodeMapDecodes : Prop :=
  decode 0x00000001 = .ok .cls ∧ decode 0x00000002 = .ok .cext ∧ decode 0x00000003 = .ok .enc ∧
  decode 0x00000004 = .ok .dec ∧ decode 0x00000005 = .ok .len ∧ decode 0x00000006 = .ok .xfw ∧
  decode 0x00000000 = .error .reservedOpcode ∧
  ∀ k : Nat, 7 ≤ k → k ≤ 15 → decode (BitVec.ofNat 32 k) = .error .reservedOpcode

/-- Decoding and encoding agree on every command, every word that decodes is the word of the command
it decodes to, and the words that decode are exactly the legal ones (`30_encoding.md` R52 to R54). -/
def Obligations.DecodeEncodeAgree : Prop :=
  (∀ i : Instr, i.wellFormed = true → decode (encode i) = .ok i) ∧
  (∀ (w : Word) (i : Instr), decode w = .ok i → w = encode i) ∧
  (∀ w : Word, (∃ i, decode w = .ok i) ↔ 1 ≤ w.toNat ∧ w.toNat ≤ 6)

/-- A step whose next move is a host write of a legal word to CMD, BUSY = 0, stores the word in CMD and
runs the command it decodes to (`30_encoding.md` R54, `10_state.md` R16); the step around it only takes
the move off the list. -/
def Obligations.StepRunsTheIssuedCommand : Prop :=
  ∀ (s : State) (rest : List Move) (w : Word) (i : Instr),
    s.pending = .hostWrite s.plat.regBase 4 w :: rest → s.busy = false → decode w = .ok i →
    step s = exec i ((s.withPending rest).storeCmd w)

/-- `withFetchWord` makes a command word the next one issued, whatever the machine was doing (the
model's own interface, `notes/assumptions/1.md`). -/
def Obligations.FetchWordIsIssuedNext : Prop :=
  ∀ (s : State) (w : Word) (i : Instr), decode w = .ok i →
    step (s.withFetchWord 32 w.toNat) = exec i (s.endScan.storeCmd w)

/-- An illegal word issued (`60_exceptions.md` R99, `30_encoding.md` R54): CMD holds the word,
ERR = ILLEGAL_CMD, and nothing else changes; the step takes the move off the list. -/
def Obligations.IllegalWordOnlySignals : Prop :=
  ∀ (s : State) (rest : List Move) (w : Word),
    s.pending = .hostWrite s.plat.regBase 4 w :: rest → s.busy = false →
    ¬ (1 ≤ w.toNat ∧ w.toNat ≤ 6) →
    ∃ t, step s = .next t ∧
      t = { s with pending := rest, cmd := w, status := t.status } ∧
      t.err = 3 ∧ t.busy = false ∧ t.status.toNat < 8

/-! ## Register accesses -/

/-- While BUSY = 1 a host write to any register is lost and starts nothing, and a host read returns the
register as at any other time (`10_state.md` R24). -/
def Obligations.WritesWhileBusyAreLost : Prop :=
  ∀ (s : State) (rest : List Move) (off : Nat) (v : Word),
    s.busy = true → off < 64 → off % 4 = 0 →
    (s.pending = .hostWrite (s.plat.regBase + off) 4 v :: rest →
      step s = .next { s with pending := rest }) ∧
    (s.pending = .hostRead (s.plat.regBase + off) 4 :: rest →
      step s = .next { s with
        pending := rest, reads := s.reads ++ [.word (s.readReg (regAt off))] })

/-- A host read of any register returns its value, 0 in the hard-wired bits of STATUS, and changes
nothing of the block (`10_state.md` R15, R21, R25, R32). -/
def Obligations.RegisterReadsHaveNoSideEffect : Prop :=
  ∀ (s : State) (rest : List Move) (off : Nat), off < 64 → off % 4 = 0 →
    s.pending = .hostRead (s.plat.regBase + off) 4 :: rest →
    ∃ v : Word, step s = .next { s with pending := rest, reads := s.reads ++ [.word v] } ∧
      (off = 0x00 → v = s.cmd) ∧ (off = 0x04 → v = s.arg0) ∧ (off = 0x08 → v = s.arg1) ∧
      (off = 0x0C → v = s.arg2) ∧ (off = 0x10 → v = s.res0) ∧ (off = 0x14 → v = s.res1) ∧
      (off = 0x18 → v.toNat = s.busy.toNat + 2 * s.err.toNat) ∧
      (0x1C ≤ off → v = 0)

/-- The reserved offsets 0x1C..0x3F read 0 and ignore writes (`10_state.md` R22). -/
def Obligations.ReservedOffsetsReadZeroIgnoreWrites : Prop :=
  ∀ (s : State) (rest : List Move) (off : Nat) (v : Word),
    0x1C ≤ off → off < 64 → off % 4 = 0 →
    (s.pending = .hostRead (s.plat.regBase + off) 4 :: rest →
      step s = .next { s with pending := rest, reads := s.reads ++ [.word 0] }) ∧
    (s.pending = .hostWrite (s.plat.regBase + off) 4 v :: rest →
      step s = .next { s with pending := rest })

/-- A host write to RES0, RES1 or STATUS is ignored (`10_state.md` R20, R21). -/
def Obligations.ReadOnlyRegistersIgnoreWrites : Prop :=
  ∀ (s : State) (rest : List Move) (off : Nat) (v : Word),
    off = 0x10 ∨ off = 0x14 ∨ off = 0x18 →
    s.pending = .hostWrite (s.plat.regBase + off) 4 v :: rest →
    step s = .next { s with pending := rest }

/-- While BUSY = 0 a host write to ARG0, ARG1 or ARG2 stores every bit in that register alone
(`10_state.md` R17, R18, R19). -/
def Obligations.ArgumentWritesStore : Prop :=
  ∀ (s : State) (rest : List Move) (v : Word), s.busy = false →
    (s.pending = .hostWrite (s.plat.regBase + 0x04) 4 v :: rest →
      step s = .next { s with pending := rest, arg0 := v }) ∧
    (s.pending = .hostWrite (s.plat.regBase + 0x08) 4 v :: rest →
      step s = .next { s with pending := rest, arg1 := v }) ∧
    (s.pending = .hostWrite (s.plat.regBase + 0x0C) 4 v :: rest →
      step s = .next { s with pending := rest, arg2 := v })

/-- A register access that is not 32 bits wide or not aligned to 4 from `REG_BASE` is refused
(`10_state.md` R23). -/
def Obligations.OddRegisterAccessesAreRefused : Prop :=
  ∀ (s : State) (rest : List Move) (off width : Nat) (v : Word), off < 64 →
    width ≠ 4 ∨ off % 4 ≠ 0 →
    (s.pending = .hostWrite (s.plat.regBase + off) width v :: rest → ∃ r, step s = .refused r) ∧
    (s.pending = .hostRead (s.plat.regBase + off) width :: rest → ∃ r, step s = .refused r)

/-! ## CLS and CEXT -/

/-- CLS completes in every state with the class code and payload of ARG0[7:0] and ERR = NONE, by the
byte ranges of `40_classifier.md` R61 (R64, R66), and leaves everything else. -/
def Obligations.ClsReportsClassAndPayload : Prop :=
  encode .cls = 0x00000001 ∧
  ∀ s : State, ∃ t, exec .cls s = .next t ∧ ShortFrame s t ∧ t.err = 0 ∧
    (byteNat s.arg0 0 ≤ 0x7F → t.res0 = 1 ∧ t.res1.toNat = byteNat s.arg0 0) ∧
    (0x80 ≤ byteNat s.arg0 0 → byteNat s.arg0 0 ≤ 0xBF →
      t.res0 = 0 ∧ t.res1.toNat = byteNat s.arg0 0 - 0x80) ∧
    (0xC0 ≤ byteNat s.arg0 0 → byteNat s.arg0 0 ≤ 0xDF →
      t.res0 = 2 ∧ t.res1.toNat = byteNat s.arg0 0 - 0xC0) ∧
    (0xE0 ≤ byteNat s.arg0 0 → byteNat s.arg0 0 ≤ 0xEF →
      t.res0 = 3 ∧ t.res1.toNat = byteNat s.arg0 0 - 0xE0) ∧
    (0xF0 ≤ byteNat s.arg0 0 → byteNat s.arg0 0 ≤ 0xF7 →
      t.res0 = 4 ∧ t.res1.toNat = byteNat s.arg0 0 - 0xF0) ∧
    (0xF8 ≤ byteNat s.arg0 0 → t.res0 = 7 ∧ t.res1 = 0)

/-- CEXT completes in every state: on a byte 0x80..0xBF with its 6 payload bits and ERR = NONE, on any
other with 0 and ERR = INVALID; RES1 = 0 (`40_classifier.md` R67); it leaves everything else. -/
def Obligations.CextExtractsPayload : Prop :=
  encode .cext = 0x00000002 ∧
  ∀ s : State, ∃ t, exec .cext s = .next t ∧ ShortFrame s t ∧ t.res1 = 0 ∧
    (0x80 ≤ byteNat s.arg0 0 ∧ byteNat s.arg0 0 ≤ 0xBF →
      t.res0.toNat = byteNat s.arg0 0 - 0x80 ∧ t.err = 0) ∧
    (¬ (0x80 ≤ byteNat s.arg0 0 ∧ byteNat s.arg0 0 ≤ 0xBF) → t.res0 = 0 ∧ t.err = 2)

/-! ## ENC -/

/-- ENC completes in every state: a code point up to 1,114,111 gives its unit's bytes packed in RES0,
unused bytes 0, and its width in RES1 (`41_encoder.md` R68, R69, R71, R72); a larger operand gives
ERR = OUT_OF_RANGE and leaves RES0 and RES1. Everything else stays. -/
def Obligations.EncPacksTheUnit : Prop :=
  encode .enc = 0x00000003 ∧
  ∀ s : State, ∃ t, exec .enc s = .next t ∧ ShortFrame s t ∧
    (s.arg0.toNat ≤ 127 → t.err = 0 ∧ t.res1 = 1 ∧ t.res0 = s.arg0) ∧
    (128 ≤ s.arg0.toNat → s.arg0.toNat ≤ 2047 → t.err = 0 ∧ t.res1 = 2 ∧
      t.res0.toNat = (0xC0 + s.arg0.toNat / 64) + 256 * (0x80 + s.arg0.toNat % 64)) ∧
    (2048 ≤ s.arg0.toNat → s.arg0.toNat ≤ 65535 → t.err = 0 ∧ t.res1 = 3 ∧
      t.res0.toNat = (0xE0 + s.arg0.toNat / 4096) + 256 * (0x80 + s.arg0.toNat / 64 % 64)
        + 65536 * (0x80 + s.arg0.toNat % 64)) ∧
    (65536 ≤ s.arg0.toNat → s.arg0.toNat ≤ 1114111 → t.err = 0 ∧ t.res1 = 4 ∧
      t.res0.toNat = (0xF0 + s.arg0.toNat / 262144) + 256 * (0x80 + s.arg0.toNat / 4096 % 64)
        + 65536 * (0x80 + s.arg0.toNat / 64 % 64) + 16777216 * (0x80 + s.arg0.toNat % 64)) ∧
    (1114112 ≤ s.arg0.toNat → t.err = 1 ∧ t.res0 = s.res0 ∧ t.res1 = s.res1)

/-- On OUT_OF_RANGE, exactly when ARG0 > 1,114,111 with all 32 bits counting, ENC writes ERR alone
(`41_encoder.md` R70, R73). -/
def Obligations.EncOutOfRangeWritesOnlyErr : Prop :=
  ∀ s t : State, exec .enc s = .next t →
    (t.err = 1 ↔ 1114111 < s.arg0.toNat) ∧
    (1114111 < s.arg0.toNat → t = { s with status := t.status } ∧ t.busy = s.busy)

/-! ## DEC -/

/-- DEC completes in every state. Where the bytes of ARG0 match a row of the table of accepted units
(`42_decoder.md` R80) it gives the code point and width, else 0, 0 and ERR = INVALID (R82, R83). It
leaves everything else. -/
def Obligations.DecAcceptsExactlyTheTable : Prop :=
  encode .dec = 0x00000004 ∧
  ∀ s : State, ∃ t, exec .dec s = .next t ∧ ShortFrame s t ∧
    match unitTable (byteNat s.arg0 0) (byteNat s.arg0 1) (byteNat s.arg0 2) (byteNat s.arg0 3) with
    | some (cp, w) => t.res0.toNat = cp ∧ t.res1.toNat = w ∧ t.err = 0
    | none => t.res0 = 0 ∧ t.res1 = 0 ∧ t.err = 2

/-- The round-trip law (`42_decoder.md` R81): the unit of a code point, padded with any bytes, decodes
to it at its width, and a decoded unit encodes to the bytes it was decoded from. -/
def Obligations.CodecRoundTrip : Prop :=
  (∀ c : Nat, c ≤ 1114111 → ∃ bytes w, encodeFn c = .ok bytes w ∧ widthOf c = some w ∧
    bytes.length = w ∧
    ∀ win : Window, win.toList.take w = bytes → decodeFn win = .ok c w) ∧
  (∀ (win : Window) (v w : Nat), decodeFn win = .ok v w →
    encodeFn v = .ok (win.toList.take w) w)

/-- ENC and then DEC of its result give the code point back, at the width ENC reported
(`42_decoder.md` R81; `95_test_vectors.md` S1). -/
def Obligations.EncThenDecRestores : Prop :=
  ∀ s : State, s.arg0.toNat ≤ 1114111 →
    ∃ t u, exec .enc s = .next t ∧ exec .dec { t with arg0 := t.res0 } = .next u ∧
      u.res0 = s.arg0 ∧ u.res1 = t.res1 ∧ u.err = 0

/-- DEC and then ENC of its result reproduce the bytes of the unit, the bytes past its width as 0
(`00_scope.md` R13). -/
def Obligations.DecThenEncReproduces : Prop :=
  ∀ s t : State, exec .dec s = .next t → t.err = 0 →
    ∃ u, exec .enc { t with arg0 := t.res0 } = .next u ∧ u.err = 0 ∧ u.res1 = t.res1 ∧
      ∀ k, k < 4 →
        byteNat u.res0 k = if k < t.res1.toNat then byteNat s.arg0 k else 0

/-- A window's bytes past the width its lead claims do not change the result; of a lead that claims
none, only the first byte counts (`42_decoder.md` R84). -/
def Obligations.BytesPastTheWidthDoNotMatter : Prop :=
  ∀ (win win' : Window) (w : Nat), (claimedWidth (classify win.b0)).getD 1 = w →
    win.toList.take w = win'.toList.take w → decodeFn win = decodeFn win'

/-! ## The scan -/

/-- Each turn makes the cursor strictly larger and never takes it past n, and the loop ends with the
cursor at n (`43_scanners.md` R93). -/
def Obligations.ScanMakesProgress : Prop :=
  ∀ (emit : Nat → Nat → Memory → Memory) (base n : Nat) (l : ScanLoop),
    (l.p < n → l.p < (scanTurn emit base n l).p ∧ (scanTurn emit base n l).p ≤ n) ∧
    (l.p ≤ n → (scanFn emit base n l).p = n)

/-- How far a turn advances where nothing is counted: 1 past a byte that is no lead pattern (R88), to n
past a truncated unit (R86), and by the full claimed width past an invalid unit (R87)
(`43_scanners.md`). A turn that counts, counts one. -/
def Obligations.ScanSkipsByClaimedWidth : Prop :=
  ∀ (emit : Nat → Nat → Memory → Memory) (base n : Nat) (l : ScanLoop) (b : Nat),
    (l.mem.read (base + l.p)).toNat = b → l.p < n →
    ((0x80 ≤ b ∧ b ≤ 0xBF) ∨ 0xF8 ≤ b → scanTurn emit base n l = { l with p := l.p + 1 }) ∧
    (∀ w, (b ≤ 0x7F ∧ w = 1) ∨ (0xC0 ≤ b ∧ b ≤ 0xDF ∧ w = 2) ∨ (0xE0 ≤ b ∧ b ≤ 0xEF ∧ w = 3) ∨
        (0xF0 ≤ b ∧ b ≤ 0xF7 ∧ w = 4) →
      (n < l.p + w → scanTurn emit base n l = { l with p := n }) ∧
      (l.p + w ≤ n → decodeFn (scanWindow l.mem (base + l.p) w) = .invalid →
        scanTurn emit base n l = { l with p := l.p + w }) ∧
      (∀ cp v, l.p + w ≤ n → decodeFn (scanWindow l.mem (base + l.p) w) = .ok cp v →
        v = w ∧ scanTurn emit base n l =
          { p := l.p + w, count := l.count + 1, mem := emit l.count cp l.mem }))

/-- LEN completes, as an issue that latches the operands and as the engine's step after it, exactly
where its launch conditions hold: the count of valid units of the input region, RES1 = 0, ERR = NONE, BUSY = 0, memory as it was.
Elsewhere the launch is refused (`43_scanners.md` R89). -/
def Obligations.LenCountsValidUnits : Prop :=
  encode .len = 0x00000005 ∧
  (∀ s : State, lenMayLaunch s → ∃ t, exec .len s = .next t ∧
    t = { s with status := t.status, scan := t.scan } ∧
    t.busy = true ∧ t.err = s.err ∧ t.status.toNat < 8 ∧
    (∃ c, t.scan = some c ∧ c.kind = .len ∧ c.base = s.arg0 ∧ c.n = s.arg1) ∧
    ScanFrame s (engineStep t) ∧
    (engineStep t).res0.toNat = (codePointsOf s.mem (inputOf s)).length ∧
    (engineStep t).res1 = 0 ∧ (engineStep t).status = 0 ∧ (engineStep t).scan = none ∧
    ∀ a, (engineStep t).mem.read a = s.mem.read a) ∧
  (∀ s : State, ¬ lenMayLaunch s → ∃ r, exec .len s = .refused r)

/-- XFW completes, as an issue that latches the operands and as the engine's step after it, exactly
where its launch conditions hold: the k-th code point stands little-endian in slot k of the output, every other byte of memory is
as it was, RES0 = the count, RES1 = 0, ERR = NONE, BUSY = 0. Elsewhere the launch is refused
(`43_scanners.md` R90, R91; `20_memory.md` R36). -/
def Obligations.XfwWritesCodePoints : Prop :=
  encode .xfw = 0x00000006 ∧
  (∀ s : State, xfwMayLaunch s → s.mem.wf = true → ∃ t, exec .xfw s = .next t ∧
    t = { s with status := t.status, scan := t.scan } ∧
    t.busy = true ∧ t.err = s.err ∧ t.status.toNat < 8 ∧
    (∃ c, t.scan = some c ∧ c.kind = .xfw ∧ c.base = s.arg0 ∧ c.n = s.arg1 ∧ c.out = s.arg2) ∧
    ScanFrame s (engineStep t) ∧
    (engineStep t).res0.toNat = (codePointsOf s.mem (inputOf s)).length ∧
    (engineStep t).res1 = 0 ∧ (engineStep t).status = 0 ∧ (engineStep t).scan = none ∧
    (∀ k cp, (codePointsOf s.mem (inputOf s))[k]? = some cp → ∀ j, j < 4 →
      ((engineStep t).mem.read (s.arg2.toNat + 4 * k + j)).toNat = cp / 256 ^ j % 256) ∧
    ∀ a, a < s.arg2.toNat ∨ s.arg2.toNat + 4 * (engineStep t).res0.toNat ≤ a →
      (engineStep t).mem.read a = s.mem.read a) ∧
  (∀ s : State, ¬ xfwMayLaunch s → ∃ r, exec .xfw s = .refused r)

/-- Where XFW launches, LEN launches too and gives the same count (`43_scanners.md` R94). -/
def Obligations.LenAndXfwAgree : Prop :=
  ∀ s t : State, exec .xfw s = .next t →
    ∃ t', exec .len s = .next t' ∧ (engineStep t).res0 = (engineStep t').res0

/-- The count is at most the byte length, so the count's slots lie in the output region
(`43_scanners.md` R95). -/
def Obligations.CountIsAtMostLength : Prop :=
  ∀ (s t : State) (i : Instr), i = .len ∨ i = .xfw → exec i s = .next t →
    (engineStep t).res0.toNat ≤ s.arg1.toNat ∧
    4 * (engineStep t).res0.toNat ≤ (outputOf s).len

/-- XFW's output words, each encoded again, are the input bytes with every invalid span removed
(`43_scanners.md` R97). -/
def Obligations.ReencodedOutputIsValidInput : Prop :=
  ∀ s t : State, exec .xfw s = .next t → s.mem.wf = true →
    ((List.range (engineStep t).res0.toNat).map (fun k =>
      unitBytes ((engineStep t).mem.readWord (s.arg2.toNat + 4 * k)).toNat)).flatten =
    validBytesOf s.mem (inputOf s)

/-- A scan command's results depend on its operands and on the bytes of its input region alone: two
states that agree there get the same RES0 and write the same output words (`10_state.md` R29,
`20_memory.md` R42). -/
def Obligations.ScanDependsOnInputRegionOnly : Prop :=
  ∀ (s s' t t' : State) (i : Instr), i = .len ∨ i = .xfw →
    s.arg0 = s'.arg0 → s.arg1 = s'.arg1 → s.arg2 = s'.arg2 →
    s.mem.wf = true → s'.mem.wf = true →
    (∀ a, s.arg0.toNat ≤ a → a < s.arg0.toNat + s.arg1.toNat → s.mem.read a = s'.mem.read a) →
    exec i s = .next t → exec i s' = .next t' →
    (engineStep t).res0 = (engineStep t').res0 ∧
    (i = .xfw → ∀ a, s.arg2.toNat ≤ a → a < s.arg2.toNat + 4 * (engineStep t).res0.toNat →
      (engineStep t).mem.read a = (engineStep t').mem.read a)

/-- A short command's outcome depends on ARG0 alone, but for the results ENC leaves unchanged on
OUT_OF_RANGE (`10_state.md` R29). -/
def Obligations.ShortCommandsHaveNoHiddenState : Prop :=
  ∀ (s s' t t' : State) (i : Instr), i ≠ .len → i ≠ .xfw → s.arg0 = s'.arg0 →
    exec i s = .next t → exec i s' = .next t' →
    t.err = t'.err ∧ (t.err ≠ 1 → t.res0 = t'.res0 ∧ t.res1 = t'.res1)

/-- LEN and XFW never surface an error: a completion leaves ERR = NONE, BUSY = 0 and RES1 = 0, and
drops the context (`43_scanners.md` R92, `10_state.md` R28, R31). -/
def Obligations.CompletionNeverReportsAnError : Prop :=
  ∀ (s : State) (c : ScanCtx), s.scan = some c →
    (engineStep s).err = 0 ∧ (engineStep s).busy = false ∧ (engineStep s).res1 = 0 ∧
    (engineStep s).scan = none

/-- A LEN or XFW issued straight after reset scans no byte and returns 0 (`70_reset_and_hazards.md`
R116). That the word is placed as the next one issued is the model's choice
(`notes/assumptions/1.md`), and so is that the very next step, with no move pending, completes the scan
(`notes/assumptions/2.md`). -/
def Obligations.ScanStraightAfterResetReturnsZero : Prop :=
  ∀ w : Word, w = 0x00000005 ∨ w = 0x00000006 →
    ∃ t u, step (State.reset.withFetchWord 32 w.toNat) = .next t ∧ t.busy = true ∧
      step t = .next u ∧ u.res0 = 0 ∧ u.busy = false ∧ u.mem = State.reset.mem

/-! ## BUSY, ERR and the whole machine -/

/-- The step that completes a scan is the engine's move, or the step taken when no move is pending
(`70_reset_and_hazards.md` R120; that the list of moves says when is the model's choice,
`notes/assumptions/2.md`). -/
def Obligations.EngineMoveIsTheEngineStep : Prop :=
  ∀ s : State, (s.pending = [] → step s = .next (engineStep s)) ∧
    ∀ rest, s.pending = .engine :: rest → step s = .next (engineStep (s.withPending rest))

/-- No step taken while a scan runs, and that leaves it running, changes a register, the context or a
byte of the scan's regions (`10_state.md` R24, R28; `70_reset_and_hazards.md` R115, R118; that the
cursor and count stand still meanwhile is the model's reading, `notes/assumptions/9.md`). -/
def Obligations.NothingMovesWhileBusy : Prop :=
  ∀ s t : State, step s = .next t → s.busy = true → t.busy = true →
    t.cmd = s.cmd ∧ t.arg0 = s.arg0 ∧ t.arg1 = s.arg1 ∧ t.arg2 = s.arg2 ∧ t.res0 = s.res0 ∧
    t.res1 = s.res1 ∧ t.status = s.status ∧ t.scan = s.scan ∧
    ∀ c r a, s.scan = some c → r ∈ c.regions → r.holds a = true → t.mem.read a = s.mem.read a

/-- BUSY is set only by the issue of LEN or XFW, and cleared only by the completion of that scan, in
the same step that writes RES0, RES1 and ERR, or by reset (`10_state.md` R31,
`70_reset_and_hazards.md` R113). -/
def Obligations.BusyFollowsTheScan : Prop :=
  ∀ s t : State, step s = .next t →
    (s.busy = false → t.busy = true →
      ∃ v rest, s.pending = .hostWrite s.plat.regBase 4 v :: rest ∧ t.cmd = v ∧
        (decode v = .ok .len ∨ decode v = .ok .xfw)) ∧
    (s.busy = true → t.busy = false →
      (∃ rest, s.pending = .reset :: rest) ∨
      ∃ c, s.scan = some c ∧ t.scan = none ∧ t.err = 0 ∧ t.res1 = 0 ∧
        t.res0 = zext32 (c.run s.mem).count ∧ t.mem = (c.run s.mem).mem)

/-- STATUS.ERR changes only at a command's completion, a write of CMD while BUSY = 0 or the end of a
scan, or at reset (`10_state.md` R27, `60_exceptions.md` R101). -/
def Obligations.ErrChangesOnlyAtCompletion : Prop :=
  ∀ s t : State, s.Inv → step s = .next t → t.err ≠ s.err →
    (s.busy = false ∧ ∃ v rest, s.pending = .hostWrite s.plat.regBase 4 v :: rest) ∨
    (s.busy = true ∧ t.busy = false ∧ t.err = 0) ∨
    ∃ rest, s.pending = .reset :: rest

/-- Which command writes which ERR code: OUT_OF_RANGE by ENC only, INVALID by DEC and CEXT only,
ILLEGAL_CMD by no command; a short command ends with one of the codes it can write, and the issue of a
scan leaves ERR (`10_state.md` R21, `60_exceptions.md` R100). -/
def Obligations.ErrCodesHaveTheirWriters : Prop :=
  ∀ (i : Instr) (s t : State), exec i s = .next t →
    (i = .cls → t.err = 0) ∧ (i = .cext → t.err = 0 ∨ t.err = 2) ∧
    (i = .enc → t.err = 0 ∨ t.err = 1) ∧ (i = .dec → t.err = 0 ∨ t.err = 2) ∧
    (i = .len ∨ i = .xfw → t.err = s.err)

/-- No condition stops the block: every command answers a next state, but for a scan launch that is
refused, and the only fault of a step is a host access past the end of host memory
(`60_exceptions.md` R98, `20_memory.md` R43; the fault is the model's choice,
`notes/assumptions/16.md`). -/
def Obligations.NothingTraps : Prop :=
  (∀ (i : Instr) (s : State), (∃ t, exec i s = .next t) ∨
    ((i = .len ∨ i = .xfw) ∧ ∃ r, exec i s = .refused r)) ∧
  (∀ (s : State) (f : Fault), step s = .fault f →
    ∃ rest a, (∃ bytes, s.pending = .memWrite a bytes :: rest ∧ 2 ^ 32 < a + bytes.length) ∨
      (∃ count, s.pending = .memRead a count :: rest ∧ 2 ^ 32 < a + count))

/-- The invariant holds at reset (`10_state.md` R30; memory and platform as the model chose them,
`notes/assumptions/4.md` and `notes/assumptions/5.md`). -/
def Obligations.InvariantHoldsAtReset : Prop := State.reset.Inv

/-- Every step keeps the invariant, from every state that has it: host memory stays canonical and
inside its 2^32 bytes, the hard-wired bits of STATUS stay 0, BUSY = 1 exactly while a scan context is
held, and that context agrees with the registers it was latched from and meets the launch conditions
(`10_state.md` R21, R24, R28, R31; `20_memory.md` R33, R43; the memory's form is the model's choice,
`notes/assumptions/4.md`, and so is the scan context's standing still, `notes/assumptions/9.md`). -/
def Obligations.StepKeepsInvariant : Prop :=
  ∀ s t : State, s.Inv → step s = .next t → t.Inv

/-- No step changes the open parameters REG_BASE and MEM_ADMIT (`00_scope.md` R5; the model's choice,
`notes/assumptions/5.md`). -/
def Obligations.OpenParametersNeverChange : Prop :=
  ∀ s t : State, step s = .next t → t.plat = s.plat

/-- WAIT (`30_encoding.md` R60): with BUSY = 0 it reads STATUS once and falls through; while a scan runs
it reads STATUS with BUSY = 1 as often as its schedule says, for every schedule, then the scan
completes, and the last read has BUSY = 0 (`70_reset_and_hazards.md` R120; the count of reads in the
move is the model's choice, `notes/assumptions/3.md`). -/
def Obligations.WaitEndsWhenTheScanCompletes : Prop :=
  (∀ (s : State) (polls : Nat) (rest : List Move), s.pending = .wait polls :: rest →
    s.busy = false →
    step s = .next { s with
      pending := rest, reads := s.reads ++ [.word (s.readReg .status)] }) ∧
  (∀ (s : State) (polls : Nat) (rest : List Move) (c : ScanCtx),
    s.pending = .wait polls :: rest → s.busy = true → s.scan = some c →
    Host.Core.run core (polls + 2) s = .next { completeScan c s with
      pending := rest
      reads := s.reads ++ List.replicate polls (.word (s.readReg .status)) ++ [.word 0] })

/-- Every run comes to an end: from a state that meets the invariant, after as many steps as
`State.work` counts, a run that no step stopped has no move left and BUSY = 0
(`70_reset_and_hazards.md` R120, R122; the list of moves is the model's choice,
`notes/assumptions/1.md` and `notes/assumptions/2.md`). -/
def Obligations.EveryRunEnds : Prop :=
  ∀ s t : State, s.Inv → Host.Core.run core s.work s = .next t → t.ended

/-! ## Reset -/

/-- Reset, in every state: each register and the scan context at its reset value
(`10_state.md` R30, `70_reset_and_hazards.md` R113). -/
def Obligations.ResetClearsTheBlock : Prop :=
  ∀ (s : State) (rest : List Move), s.pending = .reset :: rest →
    ∃ t, step s = .next t ∧ t.cmd = 0 ∧ t.arg0 = 0 ∧ t.arg1 = 0 ∧ t.arg2 = 0 ∧ t.res0 = 0 ∧
      t.res1 = 0 ∧ t.status = 0 ∧ t.busy = false ∧ t.err = 0 ∧ t.scan = none

/-- What reset leaves in the model, since it is not the block's own state (`10_state.md` R14; a choice
of the model, `notes/assumptions/14.md`): the moves to come, the platform and the reads, and with no
scan running every byte of host memory. -/
def Obligations.ResetLeavesTheHostAlone : Prop :=
  ∀ (s : State) (rest : List Move), s.pending = .reset :: rest →
    ∃ t, step s = .next t ∧ t.pending = rest ∧ t.plat = s.plat ∧ t.reads = s.reads ∧
      (s.scan = none → t.mem = s.mem ∧ t.draws = s.draws)

/-- A reset during a scan completes and leaves every byte of memory but those of a running XFW's output
region, so the input region too (`70_reset_and_hazards.md` R114). Of the bytes of that output region
nothing is said: they are free (`notes/assumptions/6.md`). That the rest of host memory stays is the
model's reading (`notes/assumptions/14.md`). -/
def Obligations.ResetDuringScanSparesTheRest : Prop :=
  ∀ (s : State) (rest : List Move) (c : ScanCtx), s.Inv → s.pending = .reset :: rest →
    s.scan = some c →
    ∃ t, step s = .next t ∧
      (∀ a, c.input.holds a = true → t.mem.read a = s.mem.read a) ∧
      (c.kind = .len → ∀ a, t.mem.read a = s.mem.read a) ∧
      (c.kind = .xfw → ∀ a, c.output.holds a = false → t.mem.read a = s.mem.read a)

/-! ## Host memory -/

/-- A host write to any byte of a running scan's regions is refused (`70_reset_and_hazards.md` R115;
for when it ends, `notes/assumptions/8.md`); the access itself is one host memory answers. -/
def Obligations.HostWriteToScanRegionIsRefused : Prop :=
  ∀ (s : State) (rest : List Move) (c : ScanCtx) (a : Nat) (bytes : List Byte) (x : Nat),
    s.pending = .memWrite a bytes :: rest → s.scan = some c →
    (Span.mk a bytes.length).ready s.plat → a ≤ x → x < a + bytes.length →
    (c.base.toNat ≤ x ∧ x < c.base.toNat + c.n.toNat) ∨
      (c.kind = .xfw ∧ c.out.toNat ≤ x ∧ x < c.out.toNat + 4 * c.n.toNat) →
    step s = .refused .hostWriteDuringScan

/-- Bytes the host writes to its memory while no scan runs read back the same, and no other byte
changes (`20_memory.md` R33, R46; the form of the accesses is the model's choice,
`notes/assumptions/22.md`). -/
def Obligations.HostMemoryReadsBackWhatWasWritten : Prop :=
  ∀ (s : State) (rest : List Move) (a : Nat) (bytes : List Byte),
    s.pending = .memWrite a bytes :: .memRead a bytes.length :: rest → s.scan = none →
    s.mem.wf = true → (Span.mk a bytes.length).ready s.plat →
    ∃ t u, step s = .next t ∧ step t = .next u ∧ u.pending = rest ∧
      u.reads = s.reads ++ [.bytes bytes] ∧ u.mem = t.mem ∧
      ∀ x, x < a ∨ a + bytes.length ≤ x → t.mem.read x = s.mem.read x

/-- A host read of memory while XFW runs completes and changes nothing but the log of reads and the
count of free bytes; the bytes it returns outside the output region are those stored
(`20_memory.md` R46). Of the bytes it returns inside that region nothing is said: they are free
(`notes/assumptions/6.md`). -/
def Obligations.HostReadDuringXfwReturnsStoredBytesOutside : Prop :=
  ∀ (s : State) (rest : List Move) (c : ScanCtx) (a count : Nat),
    s.pending = .memRead a count :: rest → s.scan = some c → c.kind = .xfw →
    (Span.mk a count).ready s.plat →
    ∃ l : List Byte, l.length = count ∧
      (∀ k, k < count → c.output.holds (a + k) = false → l[k]? = some (s.mem.read (a + k))) ∧
      step s = .next { s with
        pending := rest, reads := s.reads ++ [.bytes l], draws := s.draws + count }
end

