-- ==== Sys2Proof/Laws/Codec.lean ====
section
/-! SUPPORT. The codec's shifts and masks as arithmetic: byte ranges of the classes, payloads,
reassembly, and the bytes the encoder makes. -/

namespace Sys2Proof.Machine

theorem byteOf_toNat (w : Word) (k : Nat) : (byteOf w k).toNat = w.toNat / 2 ^ (8 * k) % 256 := by
  simp [byteOf, BitVec.extractLsb'_toNat, Nat.shiftRight_eq_div_pow]

theorem zext32_toNat {v : Nat} (h : v < 2 ^ 32) : (zext32 v).toNat = v := by
  simp only [zext32, BitVec.toNat_ofNat]
  exact Nat.mod_eq_of_lt h

/-! ## Classes (`40_classifier.md` R61) -/

theorem classify_eq_single_iff : ∀ b : Byte, classify b = .single ↔ b.toNat < 0x80 := by
  decide +kernel

theorem classify_eq_cont_iff :
    ∀ b : Byte, classify b = .cont ↔ 0x80 ≤ b.toNat ∧ b.toNat < 0xC0 := by decide +kernel

theorem classify_eq_lead2_iff :
    ∀ b : Byte, classify b = .lead2 ↔ 0xC0 ≤ b.toNat ∧ b.toNat < 0xE0 := by decide +kernel

theorem classify_eq_lead3_iff :
    ∀ b : Byte, classify b = .lead3 ↔ 0xE0 ≤ b.toNat ∧ b.toNat < 0xF0 := by decide +kernel

theorem classify_eq_lead4_iff :
    ∀ b : Byte, classify b = .lead4 ↔ 0xF0 ≤ b.toNat ∧ b.toNat < 0xF8 := by decide +kernel

theorem classify_eq_invalid_iff : ∀ b : Byte, classify b = .invalid ↔ 0xF8 ≤ b.toNat := by
  decide +kernel

theorem contPayload_eq (b : Byte) : contPayload b = b.toNat % 64 := by
  simp [contPayload, BitVec.extractLsb'_toNat]

theorem contPayload_lt (b : Byte) : contPayload b < 64 := by
  rw [contPayload_eq]
  omega

theorem payload_of_single {b : Byte} (h : classify b = .single) : payload b = b.toNat := by
  have := (classify_eq_single_iff b).1 h
  simp only [payload, h, BitVec.extractLsb'_toNat, Nat.shiftRight_zero]
  omega

theorem payload_of_lead2 {b : Byte} (h : classify b = .lead2) : payload b = b.toNat % 32 := by
  simp [payload, h, BitVec.extractLsb'_toNat]

theorem payload_of_lead3 {b : Byte} (h : classify b = .lead3) : payload b = b.toNat % 16 := by
  simp [payload, h, BitVec.extractLsb'_toNat]

theorem payload_of_lead4 {b : Byte} (h : classify b = .lead4) : payload b = b.toNat % 8 := by
  simp [payload, h, BitVec.extractLsb'_toNat]

theorem payload_of_cont {b : Byte} (h : classify b = .cont) : payload b = b.toNat % 64 := by
  simp [payload, h, contPayload_eq]

theorem payload_of_invalid {b : Byte} (h : classify b = .invalid) : payload b = 0 := by
  simp [payload, h]

/-! ## Decoding (`42_decoder.md` R74 to R79) -/

theorem shift_or (v : Nat) {c : Nat} (h : c < 64) : (v <<< 6) ||| c = v * 64 + c := by
  rw [← Nat.shiftLeft_add_eq_or_of_lt (by simpa using h), Nat.shiftLeft_eq]

theorem reassemble_nil (b : Byte) : reassemble b [] = payload b := rfl

theorem reassemble_one (b c : Byte) :
    reassemble b [c] = payload b * 64 + c.toNat % 64 := by
  simp only [reassemble, List.foldl_cons, List.foldl_nil, shift_or _ (contPayload_lt _)]
  simp only [contPayload_eq]

theorem reassemble_two (b c d : Byte) :
    reassemble b [c, d] = (payload b * 64 + c.toNat % 64) * 64 + d.toNat % 64 := by
  simp only [reassemble, List.foldl_cons, List.foldl_nil, shift_or _ (contPayload_lt _)]
  simp only [contPayload_eq]

theorem reassemble_three (b c d e : Byte) :
    reassemble b [c, d, e] =
      ((payload b * 64 + c.toNat % 64) * 64 + d.toNat % 64) * 64 + e.toNat % 64 := by
  simp only [reassemble, List.foldl_cons, List.foldl_nil, shift_or _ (contPayload_lt _)]
  simp only [contPayload_eq]

theorem decodeFn_single {win : Window} (h : classify win.b0 = .single) :
    decodeFn win = .ok win.b0.toNat 1 := by simp [decodeFn, h]

theorem decodeFn_cont {win : Window} (h : classify win.b0 = .cont) : decodeFn win = .invalid := by
  simp [decodeFn, h]

theorem decodeFn_invalid {win : Window} (h : classify win.b0 = .invalid) :
    decodeFn win = .invalid := by simp [decodeFn, h]

/-- A two-byte lead: the continuation check, then the overlong check. -/
theorem decodeFn_lead2 {win : Window} (h : classify win.b0 = .lead2) :
    decodeFn win =
      if classify win.b1 = .cont ∧ 128 ≤ win.b0.toNat % 32 * 64 + win.b1.toNat % 64 then
        .ok (win.b0.toNat % 32 * 64 + win.b1.toNat % 64) 2
      else .invalid := by
  simp only [decodeFn, h, decodeMulti, minOf]
  by_cases h1 : classify win.b1 = .cont
  · simp [h1, reassemble_one, payload_of_lead2 h]
    split <;> split <;> first | rfl | omega
  · simp [h1]

/-- A three-byte lead: the continuation checks, then the overlong check. -/
theorem decodeFn_lead3 {win : Window} (h : classify win.b0 = .lead3) :
    decodeFn win =
      if classify win.b1 = .cont ∧ classify win.b2 = .cont ∧
          2048 ≤ (win.b0.toNat % 16 * 64 + win.b1.toNat % 64) * 64 + win.b2.toNat % 64 then
        .ok ((win.b0.toNat % 16 * 64 + win.b1.toNat % 64) * 64 + win.b2.toNat % 64) 3
      else .invalid := by
  simp only [decodeFn, h, decodeMulti, minOf]
  by_cases h1 : classify win.b1 = .cont
  · by_cases h2 : classify win.b2 = .cont
    · simp [h1, h2, reassemble_two, payload_of_lead3 h]
      split <;> split <;> first | rfl | omega
    · simp [h1, h2]
  · simp [h1]

/-- A four-byte lead: the continuation checks, then the overlong and the maximum check. -/
theorem decodeFn_lead4 {win : Window} (h : classify win.b0 = .lead4) :
    decodeFn win =
      if classify win.b1 = .cont ∧ classify win.b2 = .cont ∧ classify win.b3 = .cont ∧
          65536 ≤ ((win.b0.toNat % 8 * 64 + win.b1.toNat % 64) * 64 + win.b2.toNat % 64) * 64
            + win.b3.toNat % 64 ∧
          ((win.b0.toNat % 8 * 64 + win.b1.toNat % 64) * 64 + win.b2.toNat % 64) * 64
            + win.b3.toNat % 64 ≤ Config.cpMax then
        .ok (((win.b0.toNat % 8 * 64 + win.b1.toNat % 64) * 64 + win.b2.toNat % 64) * 64
            + win.b3.toNat % 64) 4
      else .invalid := by
  simp only [decodeFn, h, decodeMulti, minOf]
  by_cases h1 : classify win.b1 = .cont
  · by_cases h2 : classify win.b2 = .cont
    · by_cases h3 : classify win.b3 = .cont
      · simp [h1, h2, h3, reassemble_three, payload_of_lead4 h]
        split
        · rw [if_neg (by omega)]
        · split
          · rw [if_neg (by omega)]
          · rw [if_pos (by omega)]
      · simp [h1, h2, h3]
    · simp [h1, h2]
  · simp [h1]

/-- A decoded width is the width the lead's class claims. -/
theorem decodeFn_width {win : Window} {cp w : Nat} (h : decodeFn win = .ok cp w) :
    claimedWidth (classify win.b0) = some w := by
  cases hc : classify win.b0 with
  | single => rw [decodeFn_single hc] at h; cases h; rfl
  | cont => rw [decodeFn_cont hc] at h; cases h
  | invalid => rw [decodeFn_invalid hc] at h; cases h
  | lead2 => rw [decodeFn_lead2 hc] at h; split at h <;> cases h; rfl
  | lead3 => rw [decodeFn_lead3 hc] at h; split at h <;> cases h; rfl
  | lead4 => rw [decodeFn_lead4 hc] at h; split at h <;> cases h; rfl

/-! ## Encoding (`41_encoder.md` R69) -/

theorem or_add {a b k : Nat} (ha : 2 ^ k ∣ a) (hb : b < 2 ^ k) : a ||| b = a + b := by
  obtain ⟨c, rfl⟩ := ha
  rw [← Nat.two_pow_add_eq_or_of_lt hb]

theorem contByte_toNat (c k : Nat) : (contByte c k).toNat = 128 + c / 2 ^ (6 * k) % 64 := by
  have h : (c / 2 ^ (6 * k)) % 64 < 64 := Nat.mod_lt _ (by omega)
  have hand : (c / 2 ^ (6 * k)) &&& 63 = c / 2 ^ (6 * k) % 64 :=
    Nat.and_two_pow_sub_one_eq_mod _ 6
  rw [contByte, chunk, Nat.shiftRight_eq_div_pow, hand,
    or_add (a := 0x80) (k := 6) ⟨2, rfl⟩ h, BitVec.toNat_ofNat]
  omega

theorem leadByte_one {c : Nat} (h : c < 256) : (leadByte 0 c).toNat = c := by
  simp [leadByte]; omega

theorem leadByte_two {c : Nat} (h : c < 2048) :
    (leadByte 0xC0 (c >>> 6)).toNat = 0xC0 + c / 64 := by
  rw [leadByte, Nat.shiftRight_eq_div_pow, or_add (a := 0xC0) (k := 5) ⟨6, rfl⟩ (by omega),
    BitVec.toNat_ofNat]
  omega

theorem leadByte_three {c : Nat} (h : c < 65536) :
    (leadByte 0xE0 (c >>> 12)).toNat = 0xE0 + c / 4096 := by
  rw [leadByte, Nat.shiftRight_eq_div_pow, or_add (a := 0xE0) (k := 4) ⟨14, rfl⟩ (by omega),
    BitVec.toNat_ofNat]
  omega

theorem leadByte_four {c : Nat} (h : c ≤ Config.cpMax) :
    (leadByte 0xF0 (c >>> 18)).toNat = 0xF0 + c / 262144 := by
  simp only [Config.cpMax] at h
  rw [leadByte, Nat.shiftRight_eq_div_pow, or_add (a := 0xF0) (k := 3) ⟨30, rfl⟩ (by omega),
    BitVec.toNat_ofNat]
  omega

theorem encodeFn_outOfRange {c : Nat} (h : Config.cpMax < c) : encodeFn c = .outOfRange := by
  simp [encodeFn, h]

theorem encodeFn_one {c : Nat} (h : c ≤ 127) : encodeFn c = .ok [leadByte 0 c] 1 := by
  have : ¬ c > Config.cpMax := by simp only [Config.cpMax]; omega
  simp [encodeFn, h, this]

theorem encodeFn_two {c : Nat} (h1 : 127 < c) (h2 : c ≤ 2047) :
    encodeFn c = .ok [leadByte 0xC0 (c >>> 6), contByte c 0] 2 := by
  have : ¬ c > Config.cpMax := by simp only [Config.cpMax]; omega
  simp [encodeFn, this, show ¬ c ≤ 127 by omega, h2]

theorem encodeFn_three {c : Nat} (h1 : 2047 < c) (h2 : c ≤ 65535) :
    encodeFn c = .ok [leadByte 0xE0 (c >>> 12), contByte c 1, contByte c 0] 3 := by
  have : ¬ c > Config.cpMax := by simp only [Config.cpMax]; omega
  simp [encodeFn, this, show ¬ c ≤ 127 by omega, show ¬ c ≤ 2047 by omega, h2]

theorem encodeFn_four {c : Nat} (h1 : 65535 < c) (h2 : c ≤ Config.cpMax) :
    encodeFn c = .ok [leadByte 0xF0 (c >>> 18), contByte c 2, contByte c 1, contByte c 0] 4 := by
  have : ¬ c > Config.cpMax := by omega
  simp [encodeFn, this, show ¬ c ≤ 127 by omega, show ¬ c ≤ 2047 by omega,
    show ¬ c ≤ 65535 by omega]

/-- Everything `encodeFn` can do, by the range of the code point. -/
theorem encodeFn_cases (c : Nat) :
    (c ≤ 127 ∧ encodeFn c = .ok [leadByte 0 c] 1) ∨
    (127 < c ∧ c ≤ 2047 ∧ encodeFn c = .ok [leadByte 0xC0 (c >>> 6), contByte c 0] 2) ∨
    (2047 < c ∧ c ≤ 65535 ∧
      encodeFn c = .ok [leadByte 0xE0 (c >>> 12), contByte c 1, contByte c 0] 3) ∨
    (65535 < c ∧ c ≤ Config.cpMax ∧
      encodeFn c = .ok [leadByte 0xF0 (c >>> 18), contByte c 2, contByte c 1, contByte c 0] 4) ∨
    (Config.cpMax < c ∧ encodeFn c = .outOfRange) := by
  by_cases h1 : c ≤ 127
  · exact .inl ⟨h1, encodeFn_one h1⟩
  by_cases h2 : c ≤ 2047
  · exact .inr (.inl ⟨by omega, h2, encodeFn_two (by omega) h2⟩)
  by_cases h3 : c ≤ 65535
  · exact .inr (.inr (.inl ⟨by omega, h3, encodeFn_three (by omega) h3⟩))
  by_cases h4 : c ≤ Config.cpMax
  · exact .inr (.inr (.inr (.inl ⟨by omega, h4, encodeFn_four (by omega) h4⟩)))
  · exact .inr (.inr (.inr (.inr ⟨by omega, encodeFn_outOfRange (by omega)⟩)))

theorem pack_cons (b : Byte) (l : List Byte) : pack (b :: l) = b.toNat + 256 * pack l := by
  simp only [pack, Nat.shiftLeft_eq]
  omega

@[simp] theorem pack_nil : pack [] = 0 := rfl

end Sys2Proof.Machine
end

