-- ==== Sys2Proof/Laws/State.lean ====
section
/-! SUPPORT. One lemma per field per update of `State`, each true by `rfl`, so that no later proof
unfolds a record update. -/

namespace Sys2Proof.Machine

section
variable (s : State) (e : Err)

@[simp] theorem State.signal_cmd : (s.signal e).cmd = s.cmd := rfl
@[simp] theorem State.signal_arg0 : (s.signal e).arg0 = s.arg0 := rfl
@[simp] theorem State.signal_arg1 : (s.signal e).arg1 = s.arg1 := rfl
@[simp] theorem State.signal_arg2 : (s.signal e).arg2 = s.arg2 := rfl
@[simp] theorem State.signal_res0 : (s.signal e).res0 = s.res0 := rfl
@[simp] theorem State.signal_res1 : (s.signal e).res1 = s.res1 := rfl
@[simp] theorem State.signal_status : (s.signal e).status = withErr s.status e := rfl
@[simp] theorem State.signal_scan : (s.signal e).scan = s.scan := rfl
@[simp] theorem State.signal_mem : (s.signal e).mem = s.mem := rfl
@[simp] theorem State.signal_plat : (s.signal e).plat = s.plat := rfl
@[simp] theorem State.signal_pending : (s.signal e).pending = s.pending := rfl
@[simp] theorem State.signal_reads : (s.signal e).reads = s.reads := rfl
@[simp] theorem State.signal_draws : (s.signal e).draws = s.draws := rfl

end

section
variable (s : State) (r0 r1 : Word)

@[simp] theorem State.writeResults_cmd : (s.writeResults r0 r1).cmd = s.cmd := rfl
@[simp] theorem State.writeResults_arg0 : (s.writeResults r0 r1).arg0 = s.arg0 := rfl
@[simp] theorem State.writeResults_arg1 : (s.writeResults r0 r1).arg1 = s.arg1 := rfl
@[simp] theorem State.writeResults_arg2 : (s.writeResults r0 r1).arg2 = s.arg2 := rfl
@[simp] theorem State.writeResults_res0 : (s.writeResults r0 r1).res0 = r0 := rfl
@[simp] theorem State.writeResults_res1 : (s.writeResults r0 r1).res1 = r1 := rfl
@[simp] theorem State.writeResults_status : (s.writeResults r0 r1).status = s.status := rfl
@[simp] theorem State.writeResults_scan : (s.writeResults r0 r1).scan = s.scan := rfl
@[simp] theorem State.writeResults_mem : (s.writeResults r0 r1).mem = s.mem := rfl
@[simp] theorem State.writeResults_plat : (s.writeResults r0 r1).plat = s.plat := rfl
@[simp] theorem State.writeResults_pending : (s.writeResults r0 r1).pending = s.pending := rfl
@[simp] theorem State.writeResults_reads : (s.writeResults r0 r1).reads = s.reads := rfl
@[simp] theorem State.writeResults_draws : (s.writeResults r0 r1).draws = s.draws := rfl

end

section
variable (s : State) (w : Word)

@[simp] theorem State.storeCmd_cmd : (s.storeCmd w).cmd = w := rfl
@[simp] theorem State.storeCmd_arg0 : (s.storeCmd w).arg0 = s.arg0 := rfl
@[simp] theorem State.storeCmd_arg1 : (s.storeCmd w).arg1 = s.arg1 := rfl
@[simp] theorem State.storeCmd_arg2 : (s.storeCmd w).arg2 = s.arg2 := rfl
@[simp] theorem State.storeCmd_res0 : (s.storeCmd w).res0 = s.res0 := rfl
@[simp] theorem State.storeCmd_res1 : (s.storeCmd w).res1 = s.res1 := rfl
@[simp] theorem State.storeCmd_status : (s.storeCmd w).status = s.status := rfl
@[simp] theorem State.storeCmd_scan : (s.storeCmd w).scan = s.scan := rfl
@[simp] theorem State.storeCmd_mem : (s.storeCmd w).mem = s.mem := rfl
@[simp] theorem State.storeCmd_plat : (s.storeCmd w).plat = s.plat := rfl
@[simp] theorem State.storeCmd_pending : (s.storeCmd w).pending = s.pending := rfl
@[simp] theorem State.storeCmd_reads : (s.storeCmd w).reads = s.reads := rfl
@[simp] theorem State.storeCmd_draws : (s.storeCmd w).draws = s.draws := rfl

end

section
variable (s : State) (c : ScanCtx)

@[simp] theorem State.startScan_cmd : (s.startScan c).cmd = s.cmd := rfl
@[simp] theorem State.startScan_arg0 : (s.startScan c).arg0 = s.arg0 := rfl
@[simp] theorem State.startScan_arg1 : (s.startScan c).arg1 = s.arg1 := rfl
@[simp] theorem State.startScan_arg2 : (s.startScan c).arg2 = s.arg2 := rfl
@[simp] theorem State.startScan_res0 : (s.startScan c).res0 = s.res0 := rfl
@[simp] theorem State.startScan_res1 : (s.startScan c).res1 = s.res1 := rfl
@[simp] theorem State.startScan_status : (s.startScan c).status = withBusy s.status true := rfl
@[simp] theorem State.startScan_scan : (s.startScan c).scan = some c := rfl
@[simp] theorem State.startScan_mem : (s.startScan c).mem = s.mem := rfl
@[simp] theorem State.startScan_plat : (s.startScan c).plat = s.plat := rfl
@[simp] theorem State.startScan_pending : (s.startScan c).pending = s.pending := rfl
@[simp] theorem State.startScan_reads : (s.startScan c).reads = s.reads := rfl
@[simp] theorem State.startScan_draws : (s.startScan c).draws = s.draws := rfl

end

section
variable (s : State)

@[simp] theorem State.endScan_cmd : (s.endScan).cmd = s.cmd := rfl
@[simp] theorem State.endScan_arg0 : (s.endScan).arg0 = s.arg0 := rfl
@[simp] theorem State.endScan_arg1 : (s.endScan).arg1 = s.arg1 := rfl
@[simp] theorem State.endScan_arg2 : (s.endScan).arg2 = s.arg2 := rfl
@[simp] theorem State.endScan_res0 : (s.endScan).res0 = s.res0 := rfl
@[simp] theorem State.endScan_res1 : (s.endScan).res1 = s.res1 := rfl
@[simp] theorem State.endScan_status : (s.endScan).status = withBusy s.status false := rfl
@[simp] theorem State.endScan_scan : (s.endScan).scan = none := rfl
@[simp] theorem State.endScan_mem : (s.endScan).mem = s.mem := rfl
@[simp] theorem State.endScan_plat : (s.endScan).plat = s.plat := rfl
@[simp] theorem State.endScan_pending : (s.endScan).pending = s.pending := rfl
@[simp] theorem State.endScan_reads : (s.endScan).reads = s.reads := rfl
@[simp] theorem State.endScan_draws : (s.endScan).draws = s.draws := rfl

end

section
variable (s : State) (m : Memory)

@[simp] theorem State.setMem_cmd : (s.setMem m).cmd = s.cmd := rfl
@[simp] theorem State.setMem_arg0 : (s.setMem m).arg0 = s.arg0 := rfl
@[simp] theorem State.setMem_arg1 : (s.setMem m).arg1 = s.arg1 := rfl
@[simp] theorem State.setMem_arg2 : (s.setMem m).arg2 = s.arg2 := rfl
@[simp] theorem State.setMem_res0 : (s.setMem m).res0 = s.res0 := rfl
@[simp] theorem State.setMem_res1 : (s.setMem m).res1 = s.res1 := rfl
@[simp] theorem State.setMem_status : (s.setMem m).status = s.status := rfl
@[simp] theorem State.setMem_scan : (s.setMem m).scan = s.scan := rfl
@[simp] theorem State.setMem_mem : (s.setMem m).mem = m := rfl
@[simp] theorem State.setMem_plat : (s.setMem m).plat = s.plat := rfl
@[simp] theorem State.setMem_pending : (s.setMem m).pending = s.pending := rfl
@[simp] theorem State.setMem_reads : (s.setMem m).reads = s.reads := rfl
@[simp] theorem State.setMem_draws : (s.setMem m).draws = s.draws := rfl

end

section
variable (s : State) (v : HostValue)

@[simp] theorem State.logRead_cmd : (s.logRead v).cmd = s.cmd := rfl
@[simp] theorem State.logRead_arg0 : (s.logRead v).arg0 = s.arg0 := rfl
@[simp] theorem State.logRead_arg1 : (s.logRead v).arg1 = s.arg1 := rfl
@[simp] theorem State.logRead_arg2 : (s.logRead v).arg2 = s.arg2 := rfl
@[simp] theorem State.logRead_res0 : (s.logRead v).res0 = s.res0 := rfl
@[simp] theorem State.logRead_res1 : (s.logRead v).res1 = s.res1 := rfl
@[simp] theorem State.logRead_status : (s.logRead v).status = s.status := rfl
@[simp] theorem State.logRead_scan : (s.logRead v).scan = s.scan := rfl
@[simp] theorem State.logRead_mem : (s.logRead v).mem = s.mem := rfl
@[simp] theorem State.logRead_plat : (s.logRead v).plat = s.plat := rfl
@[simp] theorem State.logRead_pending : (s.logRead v).pending = s.pending := rfl
@[simp] theorem State.logRead_reads : (s.logRead v).reads = s.reads ++ [v] := rfl
@[simp] theorem State.logRead_draws : (s.logRead v).draws = s.draws := rfl

end

section
variable (s : State) (k : Nat)

@[simp] theorem State.drawn_cmd : (s.drawn k).cmd = s.cmd := rfl
@[simp] theorem State.drawn_arg0 : (s.drawn k).arg0 = s.arg0 := rfl
@[simp] theorem State.drawn_arg1 : (s.drawn k).arg1 = s.arg1 := rfl
@[simp] theorem State.drawn_arg2 : (s.drawn k).arg2 = s.arg2 := rfl
@[simp] theorem State.drawn_res0 : (s.drawn k).res0 = s.res0 := rfl
@[simp] theorem State.drawn_res1 : (s.drawn k).res1 = s.res1 := rfl
@[simp] theorem State.drawn_status : (s.drawn k).status = s.status := rfl
@[simp] theorem State.drawn_scan : (s.drawn k).scan = s.scan := rfl
@[simp] theorem State.drawn_mem : (s.drawn k).mem = s.mem := rfl
@[simp] theorem State.drawn_plat : (s.drawn k).plat = s.plat := rfl
@[simp] theorem State.drawn_pending : (s.drawn k).pending = s.pending := rfl
@[simp] theorem State.drawn_reads : (s.drawn k).reads = s.reads := rfl
@[simp] theorem State.drawn_draws : (s.drawn k).draws = s.draws + k := rfl

end

section
variable (s : State) (l : List Move)

@[simp] theorem State.withPending_cmd : (s.withPending l).cmd = s.cmd := rfl
@[simp] theorem State.withPending_arg0 : (s.withPending l).arg0 = s.arg0 := rfl
@[simp] theorem State.withPending_arg1 : (s.withPending l).arg1 = s.arg1 := rfl
@[simp] theorem State.withPending_arg2 : (s.withPending l).arg2 = s.arg2 := rfl
@[simp] theorem State.withPending_res0 : (s.withPending l).res0 = s.res0 := rfl
@[simp] theorem State.withPending_res1 : (s.withPending l).res1 = s.res1 := rfl
@[simp] theorem State.withPending_status : (s.withPending l).status = s.status := rfl
@[simp] theorem State.withPending_scan : (s.withPending l).scan = s.scan := rfl
@[simp] theorem State.withPending_mem : (s.withPending l).mem = s.mem := rfl
@[simp] theorem State.withPending_plat : (s.withPending l).plat = s.plat := rfl
@[simp] theorem State.withPending_pending : (s.withPending l).pending = l := rfl
@[simp] theorem State.withPending_reads : (s.withPending l).reads = s.reads := rfl
@[simp] theorem State.withPending_draws : (s.withPending l).draws = s.draws := rfl

end

section
variable (s : State)

@[simp] theorem State.resetRegisters_cmd : (s.resetRegisters).cmd = 0 := rfl
@[simp] theorem State.resetRegisters_arg0 : (s.resetRegisters).arg0 = 0 := rfl
@[simp] theorem State.resetRegisters_arg1 : (s.resetRegisters).arg1 = 0 := rfl
@[simp] theorem State.resetRegisters_arg2 : (s.resetRegisters).arg2 = 0 := rfl
@[simp] theorem State.resetRegisters_res0 : (s.resetRegisters).res0 = 0 := rfl
@[simp] theorem State.resetRegisters_res1 : (s.resetRegisters).res1 = 0 := rfl
@[simp] theorem State.resetRegisters_status : (s.resetRegisters).status = 0 := rfl
@[simp] theorem State.resetRegisters_scan : (s.resetRegisters).scan = none := rfl
@[simp] theorem State.resetRegisters_mem : (s.resetRegisters).mem = s.mem := rfl
@[simp] theorem State.resetRegisters_plat : (s.resetRegisters).plat = s.plat := rfl
@[simp] theorem State.resetRegisters_pending : (s.resetRegisters).pending = s.pending := rfl
@[simp] theorem State.resetRegisters_reads : (s.resetRegisters).reads = s.reads := rfl
@[simp] theorem State.resetRegisters_draws : (s.resetRegisters).draws = s.draws := rfl

end

end Sys2Proof.Machine
end

