-- ==== Sys2Proof/Laws/Launch.lean ====
section
/-! SUPPORT. What the launch conditions of a scan say (`20_memory.md` R43), and what issuing one does. -/

namespace Sys2Proof.Machine

theorem Span.holds_iff {r : Span} {a : Nat} :
    r.holds a = true ↔ r.start ≤ a ∧ a < r.start + r.len := by
  simp [Span.holds]

theorem Span.inSpace_iff {r : Span} : r.inSpace = true ↔ r.start + r.len ≤ Config.memSize := by
  simp [Span.inSpace]

/-- Two ranges overlap exactly when some address lies in both. -/
theorem Span.overlaps_iff {r q : Span} :
    r.overlaps q = true ↔ ∃ a, r.holds a = true ∧ q.holds a = true := by
  simp only [Span.overlaps, Span.holds_iff, decide_eq_true_eq]
  constructor
  · intro h
    exact ⟨max r.start q.start, by omega, by omega⟩
  · rintro ⟨a, h1, h2⟩
    omega

theorem Span.not_overlaps_iff {r q : Span} :
    r.overlaps q = false ↔ ∀ a, r.holds a = true → q.holds a = false := by
  rw [← Bool.not_eq_true, Span.overlaps_iff]
  simp only [not_exists, not_and, Bool.not_eq_true]

theorem Platform.admitsAll_iff {p : Platform} {r : Span} :
    p.admitsAll r = true ↔ ∀ a, r.holds a = true → p.admits a = true := by
  simp only [Platform.admitsAll, List.all_eq_true, List.mem_range, Span.holds_iff]
  constructor
  · intro h a ha
    have := h (a - r.start) (by omega)
    rwa [show r.start + (a - r.start) = a by omega] at this
  · intro h k hk
    exact h _ (by omega)

theorem Platform.sideEffectIn_iff {p : Platform} {r : Span} :
    p.sideEffectIn r = true ↔ ∃ a, r.holds a = true ∧ p.hasSideEffect a = true := by
  simp only [Platform.sideEffectIn, List.any_eq_true, List.mem_range, Span.holds_iff]
  constructor
  · rintro ⟨k, hk, h⟩
    exact ⟨_, by omega, h⟩
  · rintro ⟨a, ha, h⟩
    exact ⟨a - r.start, by omega, by rwa [show r.start + (a - r.start) = a by omega]⟩

/-- A launch has no problem exactly when every condition of `20_memory.md` R43 holds. -/
theorem launchProblem_eq_none_iff {p : Platform} {c : ScanCtx} :
    launchProblem p c = none ↔
      (∀ r ∈ c.regions, r.inSpace = true) ∧ (∀ r ∈ c.regions, p.admitsAll r = true) ∧
      (c.kind = .xfw → c.input.overlaps c.output = false) ∧
      (∀ r ∈ c.regions, p.sideEffectIn r = false) := by
  unfold launchProblem
  split
  · rename_i h
    simp only [List.any_eq_true, Bool.not_eq_true'] at h
    obtain ⟨r, hr, hf⟩ := h
    simp only [reduceCtorEq, false_iff]
    rintro ⟨h1, -⟩
    rw [h1 r hr] at hf
    cases hf
  · rename_i h1
    simp only [List.any_eq_true, Bool.not_eq_true', not_exists, not_and, Bool.not_eq_false] at h1
    split
    · rename_i h
      simp only [List.any_eq_true, Bool.not_eq_true'] at h
      obtain ⟨r, hr, hf⟩ := h
      simp only [reduceCtorEq, false_iff]
      rintro ⟨-, h2, -⟩
      rw [h2 r hr] at hf
      cases hf
    · rename_i h2
      simp only [List.any_eq_true, Bool.not_eq_true', not_exists, not_and, Bool.not_eq_false] at h2
      split
      · rename_i h
        simp only [reduceCtorEq, false_iff]
        rintro ⟨-, -, h3, -⟩
        rw [h3 h.1] at h
        exact absurd h.2 (by decide)
      · rename_i h3
        split
        · rename_i h
          simp only [List.any_eq_true] at h
          obtain ⟨r, hr, hf⟩ := h
          simp only [reduceCtorEq, false_iff]
          rintro ⟨-, -, -, h4⟩
          rw [h4 r hr] at hf
          cases hf
        · rename_i h4
          simp only [List.any_eq_true, not_exists, not_and, Bool.not_eq_true] at h4
          simp only [true_iff]
          exact ⟨h1, h2, fun hk => by simpa using fun ho => h3 ⟨hk, ho⟩, h4⟩

/-- The refusals a launch can meet. -/
theorem launchProblem_cases {p : Platform} {c : ScanCtx} {r : Refusal}
    (h : launchProblem p c = some r) :
    r = .launchWraps ∨ r = .launchNotAdmitted ∨ r = .launchOverlap ∨ r = .launchSideEffects := by
  unfold launchProblem at h
  split at h
  · cases h; simp
  · split at h
    · cases h; simp
    · split at h
      · cases h; simp
      · split at h
        · cases h; simp
        · cases h

/-- Everything the issue of a scan can do. -/
theorem issueScan_next {kind : ScanKind} {s t : State} (h : issueScan kind s = .next t) :
    launchProblem s.plat (scanOperands kind s) = none ∧ t = s.startScan (scanOperands kind s) := by
  simp only [issueScan] at h
  split at h
  · cases h
  · rename_i hn
    cases h
    exact ⟨hn, rfl⟩

theorem issueScan_of_launch {kind : ScanKind} {s : State}
    (h : launchProblem s.plat (scanOperands kind s) = none) :
    issueScan kind s = .next (s.startScan (scanOperands kind s)) := by
  simp only [issueScan, h]

theorem issueScan_refused {kind : ScanKind} {s : State} {r : Refusal} :
    issueScan kind s = .refused r ↔ launchProblem s.plat (scanOperands kind s) = some r := by
  simp only [issueScan]
  split <;> simp_all

end Sys2Proof.Machine
end

