-- ==== Sys2Proof/Laws/Memory.lean ====
section
/-! SUPPORT. The laws of host memory: a read after a write, a read elsewhere, and the canonical form
that every operation keeps. -/

namespace Sys2Proof.Machine

@[simp] theorem Memory.read_nil (a : Nat) : Memory.read [] a = Config.unwritten := rfl

/-- Every entry of a memory lies above `lo`. -/
def Memory.above (m : Memory) (lo : Nat) : Prop := ∀ c ∈ m, lo < c.1

theorem Memory.wf_cons {a : Nat} {v : Byte} {rest : Memory} :
    Memory.wf ((a, v) :: rest) = true ↔
      v ≠ Config.unwritten ∧ Memory.above rest a ∧ Memory.wf rest = true := by
  simp [Memory.wf, Memory.above, and_assoc]

theorem Memory.read_above {m : Memory} {lo a : Nat} (h : Memory.above m lo) (ha : a ≤ lo) :
    Memory.read m a = Config.unwritten := by
  induction m with
  | nil => rfl
  | cons c rest ih =>
    obtain ⟨b, w⟩ := c
    have hb : lo < b := h (b, w) (by simp)
    have hne : a ≠ b := by omega
    simp only [Memory.read, hne, if_false]
    exact ih (fun c hc => h c (by simp [hc]))

theorem Memory.read_write_same {m : Memory} (hm : Memory.wf m = true) (a : Nat) (v : Byte) :
    Memory.read (Memory.write m a v) a = v := by
  induction m with
  | nil =>
    by_cases hv : v = Config.unwritten <;> simp [Memory.write, Memory.read, hv]
  | cons c rest ih =>
    obtain ⟨b, w⟩ := c
    obtain ⟨-, habove, hrest⟩ := Memory.wf_cons.1 hm
    simp only [Memory.write]
    split
    · rename_i hlt
      split
      · rename_i hv
        have hne : a ≠ b := by omega
        simp only [Memory.read, hne, if_false, hv]
        exact Memory.read_above habove (by omega)
      · simp [Memory.read]
    · split
      · rename_i heq
        split
        · rename_i hv
          rw [hv]
          exact Memory.read_above habove (by omega)
        · simp [Memory.read]
      · rename_i hne
        simp only [Memory.read, hne, if_false]
        exact ih hrest

theorem Memory.read_write_other (m : Memory) {a b : Nat} (v : Byte) (h : b ≠ a) :
    Memory.read (Memory.write m a v) b = Memory.read m b := by
  induction m with
  | nil => by_cases hv : v = Config.unwritten <;> simp [Memory.write, Memory.read, hv, h]
  | cons c rest ih =>
    obtain ⟨d, w⟩ := c
    simp only [Memory.write]
    split
    · split
      · rfl
      · simp [Memory.read, h]
    · split
      · rename_i heq
        have hd : b ≠ d := by omega
        split <;> simp [Memory.read, h, hd]
      · simp only [Memory.read, ih]

theorem Memory.write_above {m : Memory} {lo a : Nat} {v : Byte} (h : Memory.above m lo)
    (ha : lo < a) : Memory.above (Memory.write m a v) lo := by
  induction m with
  | nil =>
    by_cases hv : v = Config.unwritten <;> simp [Memory.write, Memory.above, hv, ha]
  | cons c rest ih =>
    obtain ⟨b, w⟩ := c
    have hb : lo < b := h (b, w) (by simp)
    have hrest : Memory.above rest lo := fun c hc => h c (by simp [hc])
    simp only [Memory.write]
    split
    · split
      · exact h
      · intro c hc
        rcases List.mem_cons.1 hc with rfl | hc
        · exact ha
        · exact h c hc
    · split
      · split
        · exact hrest
        · intro c hc
          rcases List.mem_cons.1 hc with rfl | hc
          · exact ha
          · exact hrest c hc
      · intro c hc
        rcases List.mem_cons.1 hc with rfl | hc
        · exact hb
        · exact ih hrest c hc

theorem Memory.write_wf {m : Memory} (hm : Memory.wf m = true) (a : Nat) (v : Byte) :
    Memory.wf (Memory.write m a v) = true := by
  induction m with
  | nil => by_cases hv : v = Config.unwritten <;> simp [Memory.write, Memory.wf, hv]
  | cons c rest ih =>
    obtain ⟨b, w⟩ := c
    obtain ⟨hw, habove, hrest⟩ := Memory.wf_cons.1 hm
    simp only [Memory.write]
    split
    · rename_i hlt
      split
      · exact hm
      · rename_i hv
        refine Memory.wf_cons.2 ⟨hv, ?_, hm⟩
        intro c hc
        rcases List.mem_cons.1 hc with rfl | hc
        · exact hlt
        · exact lt_trans hlt (habove c hc)
    · split
      · rename_i heq
        split
        · exact hrest
        · rename_i hv
          exact Memory.wf_cons.2 ⟨hv, by rw [heq]; exact habove, hrest⟩
      · exact Memory.wf_cons.2 ⟨hw, Memory.write_above habove (by omega), ih hrest⟩

theorem Memory.mem_write {m : Memory} {a : Nat} {v : Byte} {c : Host.Cell}
    (h : c ∈ Memory.write m a v) : c ∈ m ∨ c.1 = a := by
  induction m with
  | nil =>
    by_cases hv : v = Config.unwritten <;> simp [Memory.write, hv] at h
    exact .inr (by simp [h])
  | cons d rest ih =>
    obtain ⟨b, w⟩ := d
    simp only [Memory.write] at h
    split at h
    · split at h
      · exact .inl h
      · rcases List.mem_cons.1 h with rfl | h
        · exact .inr rfl
        · exact .inl h
    · split at h
      · split at h
        · exact .inl (by simp [h])
        · rcases List.mem_cons.1 h with rfl | h
          · exact .inr rfl
          · exact .inl (by simp [h])
      · rcases List.mem_cons.1 h with rfl | h
        · exact .inl (by simp)
        · rcases ih h with h | h
          · exact .inl (by simp [h])
          · exact .inr h

/-! ## Runs of bytes -/

theorem Memory.writeBytes_wf {m : Memory} (hm : Memory.wf m = true) (a : Nat) (l : List Byte) :
    Memory.wf (Memory.writeBytes m a l) = true := by
  induction l generalizing m a with
  | nil => exact hm
  | cons v rest ih => exact ih (Memory.write_wf hm a v) (a + 1)

theorem Memory.read_writeBytes_other (m : Memory) {a b : Nat} (l : List Byte)
    (h : b < a ∨ a + l.length ≤ b) :
    Memory.read (Memory.writeBytes m a l) b = Memory.read m b := by
  induction l generalizing m a with
  | nil => rfl
  | cons v rest ih =>
    rw [List.length_cons] at h
    rw [Memory.writeBytes, ih _ (by omega), Memory.read_write_other _ _ (by omega)]

theorem Memory.read_writeBytes_at {m : Memory} (hm : Memory.wf m = true) (a : Nat) (l : List Byte)
    {k : Nat} (hk : k < l.length) :
    Memory.read (Memory.writeBytes m a l) (a + k) = l[k] := by
  induction l generalizing m a k with
  | nil => simp at hk
  | cons v rest ih =>
    rw [Memory.writeBytes]
    cases k with
    | zero =>
      rw [show a + 0 = a from rfl, Memory.read_writeBytes_other _ _ (by omega),
        Memory.read_write_same hm]
      rfl
    | succ k =>
      have := ih (Memory.write_wf hm a v) (a + 1) (k := k) (by simpa using hk)
      rw [show a + (k + 1) = a + 1 + k by omega, this]
      rfl

theorem Memory.mem_writeBytes {m : Memory} {a : Nat} {l : List Byte} {c : Host.Cell}
    (h : c ∈ Memory.writeBytes m a l) : c ∈ m ∨ (a ≤ c.1 ∧ c.1 < a + l.length) := by
  induction l generalizing m a with
  | nil => exact .inl h
  | cons v rest ih =>
    rcases ih h with h | h
    · rcases Memory.mem_write h with h | h
      · exact .inl h
      · exact .inr (by simp only [List.length_cons]; omega)
    · exact .inr (by simp only [List.length_cons]; omega)

@[simp] theorem bytesOf_length (v : Word) : (bytesOf v).length = 4 := rfl

theorem Memory.writeWord_wf {m : Memory} (hm : Memory.wf m = true) (a : Nat) (v : Word) :
    Memory.wf (Memory.writeWord m a v) = true := Memory.writeBytes_wf hm a _

theorem Memory.read_writeWord_other (m : Memory) {a b : Nat} (v : Word)
    (h : b < a ∨ a + 4 ≤ b) : Memory.read (Memory.writeWord m a v) b = Memory.read m b :=
  Memory.read_writeBytes_other m _ h

theorem Memory.read_writeWord_at {m : Memory} (hm : Memory.wf m = true) (a : Nat) (v : Word)
    {k : Nat} (hk : k < 4) : Memory.read (Memory.writeWord m a v) (a + k) = byteOf v k := by
  rw [Memory.writeWord, Memory.read_writeBytes_at hm a (bytesOf v) (by simpa using hk)]
  match k, hk with
  | 0, _ => rfl
  | 1, _ => rfl
  | 2, _ => rfl
  | 3, _ => rfl

theorem Memory.mem_writeWord {m : Memory} {a : Nat} {v : Word} {c : Host.Cell}
    (h : c ∈ Memory.writeWord m a v) : c ∈ m ∨ (a ≤ c.1 ∧ c.1 < a + 4) :=
  Memory.mem_writeBytes h

/-- The four bytes of a word, packed again, are the word (`20_memory.md` R38). -/
theorem pack_bytesOf (v : Word) : zext32 (pack (bytesOf v)) = v := by
  apply BitVec.eq_of_toNat_eq
  simp only [zext32, bytesOf, pack, byteOf, BitVec.extractLsb'_toNat, Nat.shiftLeft_eq,
    Nat.shiftRight_eq_div_pow, BitVec.toNat_ofNat]
  have := v.isLt
  omega

theorem Memory.readWord_writeWord {m : Memory} (hm : Memory.wf m = true) (a : Nat) (v : Word) :
    Memory.readWord (Memory.writeWord m a v) a = v := by
  have h0 := Memory.read_writeWord_at hm a v (k := 0) (by omega)
  have h1 := Memory.read_writeWord_at hm a v (k := 1) (by omega)
  have h2 := Memory.read_writeWord_at hm a v (k := 2) (by omega)
  have h3 := Memory.read_writeWord_at hm a v (k := 3) (by omega)
  rw [Nat.add_zero] at h0
  rw [Memory.readWord, h0, h1, h2, h3]
  exact pack_bytesOf v

/-! ## Free bytes -/

theorem Memory.writeFree_wf {m : Memory} (hm : Memory.wf m = true) (a k len : Nat) :
    Memory.wf (Memory.writeFree m a k len) = true := by
  induction len generalizing m a k with
  | zero => exact hm
  | succ len ih => exact ih (Memory.write_wf hm a _) _ _

theorem Memory.read_writeFree_other (m : Memory) {a b : Nat} (k len : Nat)
    (h : b < a ∨ a + len ≤ b) : Memory.read (Memory.writeFree m a k len) b = Memory.read m b := by
  induction len generalizing m a k with
  | zero => rfl
  | succ len ih =>
    rw [Memory.writeFree, ih _ _ (by omega), Memory.read_write_other _ _ (by omega)]

theorem Memory.read_writeFree_at {m : Memory} (hm : Memory.wf m = true) (a k len : Nat) {i : Nat}
    (hi : i < len) : Memory.read (Memory.writeFree m a k len) (a + i) = Config.freeByte (k + i) := by
  induction len generalizing m a k i with
  | zero => omega
  | succ len ih =>
    rw [Memory.writeFree]
    cases i with
    | zero =>
      rw [show a + 0 = a from rfl, show k + 0 = k from rfl,
        Memory.read_writeFree_other _ _ _ (by omega), Memory.read_write_same hm]
    | succ i =>
      have := ih (Memory.write_wf hm a (Config.freeByte k)) (a + 1) (k + 1) (i := i) (by omega)
      rw [show a + (i + 1) = a + 1 + i by omega, this, show k + 1 + i = k + (i + 1) by omega]

theorem Memory.mem_writeFree {m : Memory} {a k len : Nat} {c : Host.Cell}
    (h : c ∈ Memory.writeFree m a k len) : c ∈ m ∨ (a ≤ c.1 ∧ c.1 < a + len) := by
  induction len generalizing m a k with
  | zero => exact .inl h
  | succ len ih =>
    rcases ih h with h | h
    · rcases Memory.mem_write h with h | h
      · exact .inl h
      · exact .inr (by omega)
    · exact .inr (by omega)

/-! ## Equal reads, equal memories -/

/-- The canonical form is canonical: two memories in it that read alike everywhere are equal. -/
theorem Memory.ext_of_read {m m' : Memory} (hm : Memory.wf m = true) (hm' : Memory.wf m' = true)
    (h : ∀ a, Memory.read m a = Memory.read m' a) : m = m' := by
  induction m generalizing m' with
  | nil =>
    cases m' with
    | nil => rfl
    | cons c rest =>
      obtain ⟨b, w⟩ := c
      have hb := h b
      simp only [Memory.read, if_true] at hb
      exact absurd hb.symm (Memory.wf_cons.1 hm').1
  | cons c rest ih =>
    obtain ⟨b, w⟩ := c
    obtain ⟨hw, habove, hrest⟩ := Memory.wf_cons.1 hm
    cases m' with
    | nil =>
      have hb := h b
      simp only [Memory.read, if_true] at hb
      exact absurd hb hw
    | cons c' rest' =>
      obtain ⟨b', w'⟩ := c'
      obtain ⟨hw', habove', hrest'⟩ := Memory.wf_cons.1 hm'
      have hbb : b = b' := by
        rcases Nat.lt_trichotomy b b' with hlt | heq | hlt
        · have hb := h b
          simp only [Memory.read, if_true, show b ≠ b' by omega, if_false] at hb
          rw [Memory.read_above habove' (by omega)] at hb
          exact absurd hb hw
        · exact heq
        · have hb := h b'
          simp only [Memory.read, if_true, show b' ≠ b by omega, if_false] at hb
          rw [Memory.read_above habove (by omega)] at hb
          exact absurd hb.symm hw'
      subst hbb
      have hww : w = w' := by simpa [Memory.read] using h b
      subst hww
      rw [ih hrest hrest']
      intro a
      by_cases hab : a ≤ b
      · rw [Memory.read_above habove hab, Memory.read_above habove' hab]
      · have := h a
        simpa only [Memory.read, show a ≠ b by omega, if_false] using this

theorem reset_memory_wf : Memory.wf State.reset.mem = true := rfl

end Sys2Proof.Machine
end

