-- ==== Sys2Proof/Laws/PerInstr.lean ====
section
/-! SUPPORT. Facts stated of each command as syntax: its term is well-formed, and its word is legal
and decodes to it (`30_encoding.md` R52 to R54). -/

namespace Sys2Proof.Laws.RoundTrip

/-- The command's term is well-formed, its word is legal, and the word decodes to it. -/
def Statement (i : Instr) : Prop :=
  i.wellFormed = true ∧ legalWord (encode i) = true ∧ decode (encode i) = .ok i

theorem cls : Statement .cls := ⟨rfl, rfl, rfl⟩

theorem cext : Statement .cext := ⟨rfl, rfl, rfl⟩

theorem enc : Statement .enc := ⟨rfl, rfl, rfl⟩

theorem dec : Statement .dec := ⟨rfl, rfl, rfl⟩

theorem len : Statement .len := ⟨rfl, rfl, rfl⟩

theorem xfw : Statement .xfw := ⟨rfl, rfl, rfl⟩

end Sys2Proof.Laws.RoundTrip
end

