-- ==== Sys2Proof/Laws/Status.lean ====
section
/-! SUPPORT. The fields of STATUS after each write of it (`10_state.md` R21). -/

namespace Sys2Proof.Machine

@[simp] theorem busyField_packStatus (b : Bool) (e : BitVec 2) : busyField (packStatus b e) = b := by
  revert b e; decide

@[simp] theorem errField_packStatus (b : Bool) (e : BitVec 2) : errField (packStatus b e) = e := by
  revert b e; decide

theorem packStatus_toNat_lt (b : Bool) (e : BitVec 2) : (packStatus b e).toNat < 8 := by
  revert b e; decide

theorem packStatus_fields_of_lt {w : Word} (h : w.toNat < 8) :
    packStatus (busyField w) (errField w) = w := by
  obtain ⟨k, rfl⟩ : ∃ k : Fin 8, w = BitVec.ofNat 32 k.val :=
    ⟨⟨w.toNat, h⟩, by simp⟩
  revert k; decide

@[simp] theorem busyField_withErr (w : Word) (e : Err) : busyField (withErr w e) = busyField w := by
  simp [withErr]

@[simp] theorem errField_withErr (w : Word) (e : Err) : errField (withErr w e) = e.code := by
  simp [withErr]

@[simp] theorem busyField_withBusy (w : Word) (b : Bool) : busyField (withBusy w b) = b := by
  simp [withBusy]

@[simp] theorem errField_withBusy (w : Word) (b : Bool) : errField (withBusy w b) = errField w := by
  simp [withBusy]

@[simp] theorem busyField_statusView (w : Word) : busyField (statusView w) = busyField w := by
  simp [statusView]

@[simp] theorem errField_statusView (w : Word) : errField (statusView w) = errField w := by
  simp [statusView]

@[simp] theorem busyField_zero : busyField 0#32 = false := by decide

@[simp] theorem errField_zero : errField 0#32 = 0 := by decide

theorem withErr_toNat_lt (w : Word) (e : Err) : (withErr w e).toNat < 8 := packStatus_toNat_lt _ _

theorem withBusy_toNat_lt (w : Word) (b : Bool) : (withBusy w b).toNat < 8 := packStatus_toNat_lt _ _

theorem statusView_of_lt {w : Word} (h : w.toNat < 8) : statusView w = w :=
  packStatus_fields_of_lt h

section
variable (s : State)

@[simp] theorem State.busy_signal (e : Err) : (s.signal e).busy = s.busy := by simp [State.busy]
@[simp] theorem State.busy_writeResults (a b : Word) : (s.writeResults a b).busy = s.busy := rfl
@[simp] theorem State.busy_storeCmd (w : Word) : (s.storeCmd w).busy = s.busy := rfl
@[simp] theorem State.busy_startScan (c : ScanCtx) : (s.startScan c).busy = true := by
  simp [State.busy]
@[simp] theorem State.busy_endScan : s.endScan.busy = false := by simp [State.busy]
@[simp] theorem State.busy_setMem (m : Memory) : (s.setMem m).busy = s.busy := rfl
@[simp] theorem State.busy_logRead (v : HostValue) : (s.logRead v).busy = s.busy := rfl
@[simp] theorem State.busy_drawn (k : Nat) : (s.drawn k).busy = s.busy := rfl
@[simp] theorem State.busy_withPending (l : List Move) : (s.withPending l).busy = s.busy := rfl
@[simp] theorem State.busy_resetRegisters : s.resetRegisters.busy = false := by simp [State.busy]

@[simp] theorem State.err_signal (e : Err) : (s.signal e).err = e.code := by simp [State.err]
@[simp] theorem State.err_writeResults (a b : Word) : (s.writeResults a b).err = s.err := rfl
@[simp] theorem State.err_storeCmd (w : Word) : (s.storeCmd w).err = s.err := rfl
@[simp] theorem State.err_startScan (c : ScanCtx) : (s.startScan c).err = s.err := by
  simp [State.err]
@[simp] theorem State.err_endScan : s.endScan.err = s.err := by simp [State.err]
@[simp] theorem State.err_setMem (m : Memory) : (s.setMem m).err = s.err := rfl
@[simp] theorem State.err_logRead (v : HostValue) : (s.logRead v).err = s.err := rfl
@[simp] theorem State.err_drawn (k : Nat) : (s.drawn k).err = s.err := rfl
@[simp] theorem State.err_withPending (l : List Move) : (s.withPending l).err = s.err := rfl
@[simp] theorem State.err_resetRegisters : s.resetRegisters.err = 0 := by simp [State.err]

end

end Sys2Proof.Machine
end

