-- ==== Sys2Proof/Laws/Scan.lean ====
section
/-! SUPPORT. Everything one turn of the scan loop, the loop, and the completion of a scan can do
(`43_scanners.md` R85 to R90). -/

namespace Sys2Proof.Machine

theorem claimedWidth_pos {k : ByteClass} {w : Nat} (h : claimedWidth k = some w) :
    1 ≤ w ∧ w ≤ 4 := by
  cases k <;> cases h <;> decide

section
variable {emit : Nat → Nat → Memory → Memory} {base n : Nat}

/-- One turn is one of: a byte skipped alone, a truncated unit that ends the scan, a valid unit
emitted and counted, an invalid unit passed by its claimed width. -/
theorem scanTurn_cases (emit : Nat → Nat → Memory → Memory) (base n : Nat) (l : ScanLoop) :
    (claimedWidth (classify (l.mem.read (base + l.p))) = none ∧
        scanTurn emit base n l = { l with p := l.p + 1 }) ∨
    ∃ w, claimedWidth (classify (l.mem.read (base + l.p))) = some w ∧
      ((n < l.p + w ∧ scanTurn emit base n l = { l with p := n }) ∨
       (l.p + w ≤ n ∧ ∃ cp, decodeFn (scanWindow l.mem (base + l.p) w) = .ok cp w ∧
          scanTurn emit base n l =
            { p := l.p + w, count := l.count + 1, mem := emit l.count cp l.mem }) ∨
       (l.p + w ≤ n ∧ decodeFn (scanWindow l.mem (base + l.p) w) = .invalid ∧
          scanTurn emit base n l = { l with p := l.p + w })) := by
  unfold scanTurn
  cases hw : claimedWidth (classify (l.mem.read (base + l.p))) with
  | none => exact .inl ⟨rfl, rfl⟩
  | some w =>
    refine .inr ⟨w, rfl, ?_⟩
    by_cases hn : l.p + w > n
    · exact .inl ⟨hn, by simp [hn]⟩
    · cases hd : decodeFn (scanWindow l.mem (base + l.p) w) with
      | invalid => exact .inr (.inr ⟨by omega, rfl, by simp [hn, hd]⟩)
      | ok cp w' =>
        have hww : some w' = some w := by
          rw [← decodeFn_width hd, ← hw]
          rfl
        obtain rfl := Option.some.inj hww
        exact .inr (.inl ⟨by omega, cp, rfl, by simp [hn, hd]⟩)

theorem scanTurns_zero (l : ScanLoop) : scanTurns emit base n 0 l = l := rfl

theorem scanTurns_succ_of_lt {l : ScanLoop} (k : Nat) (h : l.p < n) :
    scanTurns emit base n (k + 1) l = scanTurns emit base n k (scanTurn emit base n l) := by
  simp [scanTurns, h]

theorem scanTurns_of_le {l : ScanLoop} (k : Nat) (h : n ≤ l.p) :
    scanTurns emit base n k l = l := by
  cases k with
  | zero => rfl
  | succ k => simp [scanTurns, show ¬ l.p < n by omega]

/-- What holds at the start of the loop and is kept by every turn taken holds at its end. -/
theorem scanTurns_induction (P : ScanLoop → Prop)
    (hturn : ∀ l, P l → l.p < n → P (scanTurn emit base n l)) (k : Nat) :
    ∀ l, P l → P (scanTurns emit base n k l) := by
  induction k with
  | zero => exact fun l h => h
  | succ k ih =>
    intro l h
    by_cases hl : l.p < n
    · rw [scanTurns_succ_of_lt k hl]
      exact ih _ (hturn l h hl)
    · rwa [scanTurns_of_le _ (by omega)]

theorem scanFn_induction (P : ScanLoop → Prop)
    (hturn : ∀ l, P l → l.p < n → P (scanTurn emit base n l)) {l : ScanLoop} (h : P l) :
    P (scanFn emit base n l) := scanTurns_induction P hturn _ l h

end

/-- A window reads only the w bytes of its unit, so memories that agree there give one window. -/
theorem scanWindow_congr {m m' : Memory} {a w : Nat} (hw : 1 ≤ w)
    (h : ∀ k, k < w → m.read (a + k) = m'.read (a + k)) : scanWindow m a w = scanWindow m' a w := by
  have h0 := h 0 (by omega)
  rw [Nat.add_zero] at h0
  simp only [scanWindow, h0, Window.mk.injEq, true_and]
  refine ⟨?_, ?_, ?_⟩
  · split
    · exact h 1 (by omega)
    · rfl
  · split
    · exact h 2 (by omega)
    · rfl
  · split
    · exact h 3 (by omega)
    · rfl

/-! ## Completion, field by field -/

section
variable (c : ScanCtx) (s : State)

@[simp] theorem completeScan_cmd : (completeScan c s).cmd = s.cmd := rfl
@[simp] theorem completeScan_arg0 : (completeScan c s).arg0 = s.arg0 := rfl
@[simp] theorem completeScan_arg1 : (completeScan c s).arg1 = s.arg1 := rfl
@[simp] theorem completeScan_arg2 : (completeScan c s).arg2 = s.arg2 := rfl
@[simp] theorem completeScan_res0 : (completeScan c s).res0 = zext32 (c.run s.mem).count := rfl
@[simp] theorem completeScan_res1 : (completeScan c s).res1 = 0 := rfl
@[simp] theorem completeScan_scan : (completeScan c s).scan = none := rfl
@[simp] theorem completeScan_mem : (completeScan c s).mem = (c.run s.mem).mem := rfl
@[simp] theorem completeScan_plat : (completeScan c s).plat = s.plat := rfl
@[simp] theorem completeScan_pending : (completeScan c s).pending = s.pending := rfl
@[simp] theorem completeScan_reads : (completeScan c s).reads = s.reads := rfl
@[simp] theorem completeScan_draws : (completeScan c s).draws = s.draws := rfl
@[simp] theorem completeScan_busy : (completeScan c s).busy = false := by simp [completeScan]
@[simp] theorem completeScan_err : (completeScan c s).err = Err.none.code := by simp [completeScan]
@[simp] theorem completeScan_status : (completeScan c s).status = 0 := by
  show withBusy (withErr s.status .none) false = 0
  simp [withBusy, Err.code]
  decide

end

/-- A completion neither reads nor changes the moves to come. -/
theorem completeScan_withPending (c : ScanCtx) (s : State) (l : List Move) :
    completeScan c (s.withPending l) = (completeScan c s).withPending l := by
  simp only [completeScan, State.withPending_mem]
  generalize c.run s.mem = r
  rfl

/-- A completion neither reads nor changes what host reads have returned. -/
theorem completeScan_logRead (c : ScanCtx) (s : State) (v : HostValue) :
    completeScan c (s.logRead v) = (completeScan c s).logRead v := by
  simp only [completeScan, State.logRead_mem]
  generalize c.run s.mem = r
  rfl

/-- The engine's step is the completion of the running scan, or nothing. -/
theorem engineStep_cases (s : State) :
    (s.scan = none ∧ engineStep s = s) ∨
      ∃ c, s.scan = some c ∧ engineStep s = completeScan c s := by
  unfold engineStep
  cases h : s.scan with
  | none => exact .inl ⟨rfl, rfl⟩
  | some c => exact .inr ⟨c, rfl, rfl⟩

end Sys2Proof.Machine
end

