-- ==== Sys2Proof/Laws/Step.lean ====
section
/-! SUPPORT. Everything a step can do, move by move: one inversion lemma for each operation of
`Machine/HostPort.lean`, and the results of the commands. -/

namespace Sys2Proof.Machine

/-! ## Commands -/

theorem exec_cls (s : State) : exec .cls s = .next
    ((s.writeResults (zext32 (classCode (classify (byteOperand s))))
      (zext32 (payload (byteOperand s)))).signal .none) := rfl

/-- The two outcomes of CEXT. -/
theorem exec_cext_cases (s : State) :
    (classify (byteOperand s) = .cont ∧ exec .cext s =
        .next ((s.writeResults (zext32 (contPayload (byteOperand s))) 0).signal .none)) ∨
    (classify (byteOperand s) ≠ .cont ∧
      exec .cext s = .next ((s.writeResults 0 0).signal .invalid)) := by
  by_cases h : classify (byteOperand s) = .cont
  · exact .inl ⟨h, by simp [exec, execCext, h]⟩
  · exact .inr ⟨h, by simp [exec, execCext, h]⟩

/-- The two outcomes of ENC. -/
theorem exec_enc_cases (s : State) :
    (∃ bytes w, encodeFn (codePointOperand s) = .ok bytes w ∧ exec .enc s =
        .next ((s.writeResults (zext32 (pack bytes)) (zext32 w)).signal .none)) ∨
    (encodeFn (codePointOperand s) = .outOfRange ∧
      exec .enc s = .next (s.signal .outOfRange)) := by
  cases h : encodeFn (codePointOperand s) with
  | ok bytes w => exact .inl ⟨bytes, w, rfl, by simp [exec, execEnc, h]⟩
  | outOfRange => exact .inr ⟨rfl, by simp [exec, execEnc, h]⟩

/-- The two outcomes of DEC. -/
theorem exec_dec_cases (s : State) :
    (∃ cp w, decodeFn (windowOperand s) = .ok cp w ∧ exec .dec s =
        .next ((s.writeResults (zext32 cp) (zext32 w)).signal .none)) ∨
    (decodeFn (windowOperand s) = .invalid ∧
      exec .dec s = .next ((s.writeResults 0 0).signal .invalid)) := by
  cases h : decodeFn (windowOperand s) with
  | ok cp w => exact .inl ⟨cp, w, rfl, by simp [exec, execDec, h]⟩
  | invalid => exact .inr ⟨rfl, by simp [exec, execDec, h]⟩

theorem exec_len (s : State) : exec .len s = issueScan .len s := rfl

theorem exec_xfw (s : State) : exec .xfw s = issueScan .xfw s := rfl

/-- A command's next state is a short command's result written and an ERR code signalled, an ERR code
signalled alone, or a scan started. -/
theorem exec_next {i : Instr} {s t : State} (h : exec i s = .next t) :
    (∃ r0 r1 e, t = (s.writeResults r0 r1).signal e ∧ i ≠ .len ∧ i ≠ .xfw) ∨
    (i = .enc ∧ t = s.signal .outOfRange) ∨
    (∃ kind, exec i s = issueScan kind s ∧ launchProblem s.plat (scanOperands kind s) = none ∧
      t = s.startScan (scanOperands kind s) ∧
      ((i = .len ∧ kind = .len) ∨ (i = .xfw ∧ kind = .xfw))) := by
  cases i with
  | cls =>
    rw [exec_cls] at h
    cases h
    exact .inl ⟨_, _, _, rfl, by decide, by decide⟩
  | cext =>
    rcases exec_cext_cases s with ⟨-, he⟩ | ⟨-, he⟩ <;> rw [he] at h <;> cases h <;>
      exact .inl ⟨_, _, _, rfl, by decide, by decide⟩
  | enc =>
    rcases exec_enc_cases s with ⟨_, _, -, he⟩ | ⟨-, he⟩ <;> rw [he] at h <;> cases h
    · exact .inl ⟨_, _, _, rfl, by decide, by decide⟩
    · exact .inr (.inl ⟨rfl, rfl⟩)
  | dec =>
    rcases exec_dec_cases s with ⟨_, _, -, he⟩ | ⟨-, he⟩ <;> rw [he] at h <;> cases h <;>
      exact .inl ⟨_, _, _, rfl, by decide, by decide⟩
  | len =>
    obtain ⟨hl, ht⟩ := issueScan_next h
    exact .inr (.inr ⟨.len, rfl, hl, ht, .inl ⟨rfl, rfl⟩⟩)
  | xfw =>
    obtain ⟨hl, ht⟩ := issueScan_next h
    exact .inr (.inr ⟨.xfw, rfl, hl, ht, .inr ⟨rfl, rfl⟩⟩)

/-- Everything the issue of a word can do. -/
theorem issue_next {w : Word} {s t : State} (h : issue w s = .next t) :
    (∃ i, decode w = .ok i ∧ exec i (s.storeCmd w) = .next t) ∨
    (∃ e, decode w = .error e ∧ t = (s.storeCmd w).signal .illegalCmd) := by
  simp only [issue] at h
  split at h
  · rename_i i hi
    exact .inl ⟨i, hi, h⟩
  · rename_i e he
    cases h
    exact .inr ⟨e, he, rfl⟩

/-! ## Registers -/

/-- The condition under which a host register access is one. -/
theorem registerAccessProblem_eq_none_iff {p : Platform} {addr width : Nat} :
    registerAccessProblem p addr width = none ↔
      p.regBase ≤ addr ∧ addr < p.regBase + Config.windowSize ∧ width = 4 ∧
      (addr - p.regBase) % 4 = 0 := by
  unfold registerAccessProblem
  split
  · simp only [reduceCtorEq, false_iff]
    omega
  · split
    · simp only [reduceCtorEq, false_iff]
      omega
    · split
      · simp only [reduceCtorEq, false_iff]
        omega
      · simp only [true_iff]
        omega

/-- Everything a register write that is no issue can do. -/
theorem writeReg_cases (s : State) (r : Reg) (v : Word) :
    s.writeReg r v = s ∨
    (s.busy = false ∧ ((r = .arg0 ∧ s.writeReg r v = { s with arg0 := v }) ∨
      (r = .arg1 ∧ s.writeReg r v = { s with arg1 := v }) ∨
      (r = .arg2 ∧ s.writeReg r v = { s with arg2 := v }))) := by
  unfold State.writeReg
  cases hb : s.busy with
  | true => exact .inl rfl
  | false => cases r <;> simp

theorem hostWriteReg_next {r : Reg} {v : Word} {s t : State} (h : hostWriteReg r v s = .next t) :
    (r = .cmd ∧ s.busy = false ∧ issue v s = .next t) ∨
    (¬ (r = .cmd ∧ s.busy = false) ∧ t = s.writeReg r v) := by
  unfold hostWriteReg at h
  split at h
  · rename_i hc
    exact .inl ⟨hc.1, hc.2, h⟩
  · rename_i hc
    cases h
    exact .inr ⟨hc, rfl⟩

theorem hostWrite_next {addr width : Nat} {v : Word} {s t : State}
    (h : hostWrite addr width v s = .next t) :
    registerAccessProblem s.plat addr width = none ∧
      hostWriteReg (s.plat.regOf addr) v s = .next t := by
  unfold hostWrite at h
  split at h
  · cases h
  · rename_i hn
    exact ⟨hn, h⟩

theorem hostRead_next {addr width : Nat} {s t : State} (h : hostRead addr width s = .next t) :
    registerAccessProblem s.plat addr width = none ∧
      t = s.logRead (.word (s.readReg (s.plat.regOf addr))) := by
  unfold hostRead at h
  split at h
  · cases h
  · rename_i hn
    cases h
    exact ⟨hn, rfl⟩

/-! ## Host memory -/

theorem hostMemAccess_next {r : Span} {s t : State} {go : Host.Outcome State Fault Refusal}
    (h : hostMemAccess r s go = .next t) :
    r.inSpace = true ∧ s.plat.admitsAll r = true ∧ s.plat.sideEffectIn r = false ∧
      go = .next t := by
  unfold hostMemAccess at h
  split at h
  · cases h
  · split at h
    · cases h
    · split at h
      · cases h
      · rename_i h1 h2 h3
        exact ⟨by simpa using h1, by simpa using h2, by simpa using h3, h⟩

theorem hostMemAccess_of {r : Span} {s : State} {go : Host.Outcome State Fault Refusal}
    (h1 : r.inSpace = true) (h2 : s.plat.admitsAll r = true) (h3 : s.plat.sideEffectIn r = false) :
    hostMemAccess r s go = go := by
  simp [hostMemAccess, h1, h2, h3]

theorem hostMemWrite_next {a : Nat} {bytes : List Byte} {s t : State}
    (h : hostMemWrite a bytes s = .next t) :
    a + bytes.length ≤ Config.memSize ∧
      (∀ r ∈ s.guarded, r.overlaps ⟨a, bytes.length⟩ = false) ∧
      t = s.setMem (s.mem.writeBytes a bytes) := by
  obtain ⟨h1, -, -, h4⟩ := hostMemAccess_next h
  split at h4
  · cases h4
  · rename_i hg
    cases h4
    refine ⟨Span.inSpace_iff.1 h1, ?_, rfl⟩
    simpa using hg

theorem hostMemRead_next {a count : Nat} {s t : State} (h : hostMemRead a count s = .next t) :
    t = (s.logRead (.bytes ((List.range count).map (s.hostByte a)))).drawn count := by
  obtain ⟨-, -, -, h4⟩ := hostMemAccess_next h
  cases h4
  rfl

/-! ## WAIT, reset and the step -/

/-- Everything a turn of WAIT can do. -/
theorem waitPoll_cases (polls : Nat) (s : State) :
    (s.busy = false ∧ waitPoll polls s = .next (pollStatus s)) ∨
    (s.busy = true ∧ polls = 0 ∧
      waitPoll polls s = .next ((engineStep s).withPending (.wait 0 :: s.pending))) ∨
    (s.busy = true ∧ ∃ k, polls = k + 1 ∧
      waitPoll polls s = .next ((pollStatus s).withPending (.wait k :: s.pending))) := by
  unfold waitPoll
  cases hb : s.busy with
  | false => exact .inl ⟨rfl, rfl⟩
  | true =>
    cases polls with
    | zero => exact .inr (.inl ⟨rfl, rfl, rfl⟩)
    | succ k => exact .inr (.inr ⟨rfl, k, rfl, rfl⟩)

/-- Everything reset can do: only a reset that ends a running XFW touches memory. -/
theorem resetBlock_cases (s : State) :
    ((∀ c, s.scan = some c → c.kind = .len) ∧ s.resetBlock = s.resetRegisters) ∨
    ∃ c, s.scan = some c ∧ c.kind = .xfw ∧ s.resetBlock =
      ((s.setMem (s.mem.writeFree c.output.start s.draws c.output.len)).drawn
        c.output.len).resetRegisters := by
  unfold State.resetBlock
  cases hs : s.scan with
  | none => exact .inl ⟨fun c hc => (by cases hc), rfl⟩
  | some c =>
    cases hk : c.kind with
    | len => exact .inl ⟨fun d hd => (by cases hd; exact hk), by simp [hk]⟩
    | xfw => exact .inr ⟨c, rfl, hk, by simp [hk]⟩

theorem step_of_nil {s : State} (h : s.pending = []) : step s = .next (engineStep s) := by
  simp [step, h, idleMove]

theorem step_of_cons {s : State} {m : Move} {rest : List Move} (h : s.pending = m :: rest) :
    step s = makeMove m (s.withPending rest) := by
  simp [step, h]

/-- Everything a step can do. -/
theorem step_next {s t : State} (h : step s = .next t) :
    (s.pending = [] ∧ t = engineStep s) ∨
    ∃ m rest, s.pending = m :: rest ∧ makeMove m (s.withPending rest) = .next t := by
  cases hp : s.pending with
  | nil =>
    rw [step_of_nil hp] at h
    cases h
    exact .inl ⟨rfl, rfl⟩
  | cons m rest =>
    rw [step_of_cons hp] at h
    exact .inr ⟨m, rest, rfl, h⟩

end Sys2Proof.Machine
end

