-- ==== Sys2Proof/Tests/Slice0.lean ====
section
/-! SUPPORT. Tests of the model, with expected values from `95_test_vectors.md` and the opcode table,
and for every statement with hypotheses a witness that they can be met together, each clause at the
bounds of its range. -/

namespace Sys2Proof.Tests

open Sys2Proof.Machine

/-- The next state of an outcome, if it has one. -/
def nextOf (o : Host.Outcome State Fault Refusal) : Option State :=
  match o with
  | .next s => some s
  | .fault _ => none
  | .refused _ => none

/-- The refusal of an outcome, if it is one. -/
def refusalOf (o : Host.Outcome State Fault Refusal) : Option Refusal :=
  match o with
  | .next _ => none
  | .fault _ => none
  | .refused r => some r

/-- After reset, with ARG0 set. -/
def withArg0 (v : Word) : State := { State.reset with arg0 := v }

/-- RES0, RES1 and STATUS after a command on ARG0. -/
def result (i : Instr) (v : Word) : Option (Word × Word × Word) :=
  (nextOf (exec i (withArg0 v))).map fun s => (s.res0, s.res1, s.status)

/-- After reset, with moves to come. -/
def withMoves (l : List Move) : State := { State.reset with pending := l }

/-- After reset, bytes at 0x1000, a scan of them into 0x2000 as the operands. -/
def withInput (l : List Byte) : State :=
  { State.reset with
    arg0 := 0x1000, arg1 := BitVec.ofNat 32 l.length, arg2 := 0x2000
    mem := Memory.writeBytes [] 0x1000 l }

/-- The state after a scan command and the completion of its scan. -/
def scanned (i : Instr) (l : List Byte) : Option State :=
  (nextOf (exec i (withInput l))).map engineStep

/-- A state in which a scan of the three bytes 41 42 43 runs, with moves to come. -/
def running (kind : ScanKind) (l : List Move) : State :=
  { ((withInput [0x41, 0x42, 0x43]).startScan
      (scanOperands kind (withInput [0x41, 0x42, 0x43]))) with
    cmd := encode kind.instr, pending := l }

/-! ## Decoding, each word written out from the table's encoding -/

theorem test_decode_cls : decode 0b00000000000000000000000000000001 = .ok .cls := by decide
theorem test_decode_cext : decode 0b00000000000000000000000000000010 = .ok .cext := by decide
theorem test_decode_enc : decode 0b00000000000000000000000000000011 = .ok .enc := by decide
theorem test_decode_dec : decode 0b00000000000000000000000000000100 = .ok .dec := by decide
theorem test_decode_len : decode 0b00000000000000000000000000000101 = .ok .len := by decide
theorem test_decode_xfw : decode 0b00000000000000000000000000000110 = .ok .xfw := by decide

/-- `95_test_vectors.md` 2.6: reserved opcodes and a set RSVD bit. -/
theorem test_decode_illegal :
    decode 0x00000000 = .error .reservedOpcode ∧ decode 0x0000000F = .error .reservedOpcode ∧
    decode 0x00000013 = .error .reservedBits ∧ decode 0x80000004 = .error .reservedBits := by decide

theorem test_table_word : decodeTableWord 32 0x6 = some .xfw ∧ decodeTableWord 32 0x13 = none := by
  decide

/-! ## WellFormed: each check refuses an ill-formed word -/

theorem test_legalWord_refuses_opcode_zero : legalWord 0x00000000 = false := by decide
theorem test_legalWord_refuses_opcode_seven : legalWord 0x00000007 = false := by decide
theorem test_legalWord_refuses_reserved_bits : legalWord 0x00000013 = false := by decide
theorem test_legalWord_accepts_enc : legalWord 0x00000003 = true := by decide
theorem test_wellFormed_all : ∀ i : Instr, i.wellFormed = true := by intro i; cases i <;> rfl

/-! ## Commands (`95_test_vectors.md` section 2) -/

theorem test_cls_ignores_upper_bits : result .cls 0xFFFFFF41 = some (1, 0x41, 0) := by decide
theorem test_cls_invalid_class : result .cls 0x000000F8 = some (7, 0, 0) := by decide
theorem test_cext_payload : result .cext 0x000000AC = some (0x2C, 0, 0) := by decide
theorem test_cext_not_continuation : result .cext 0x000000C0 = some (0, 0, 4) := by decide
theorem test_enc_three_bytes : result .enc 0x000020AC = some (0x00AC82E2, 3, 0) := by decide
theorem test_enc_out_of_range : result .enc 0x00110000 = some (0, 0, 2) := by decide
theorem test_dec_largest : result .dec 0xBFBF8FF4 = some (0x10FFFF, 4, 0) := by decide
theorem test_dec_over_maximum : result .dec 0x808090F4 = some (0, 0, 4) := by decide

/-- S12: an invalid 4-byte unit is passed as a block of 4. -/
theorem test_len_skips_claimed_width :
    (scanned .len [0xF0, 0x41, 0x42, 0x43, 0x44]).map (·.res0) = some 1 := by decide

/-- Section 2.5: a truncated lead takes the rest of the buffer. -/
theorem test_len_truncated : (scanned .len [0x41, 0xE2, 0x82]).map (·.res0) = some 1 := by decide

/-- Section 2.5: the output of `E2 82 AC 41 C2 80`, little-endian words; an unwritten 0 is not listed. -/
theorem test_xfw_output :
    (scanned .xfw [0xE2, 0x82, 0xAC, 0x41, 0xC2, 0x80]).map
      (fun s => (s.res0, s.status, s.mem.filter (fun c => decide (0x2000 ≤ c.1)))) =
    some (3, 0, [(0x2000, 0xAC), (0x2001, 0x20), (0x2004, 0x41), (0x2008, 0x80)]) := by decide

/-- `20_memory.md` R43 item 3: overlapping regions are refused. -/
theorem test_xfw_overlap :
    refusalOf (exec .xfw { withInput [0x41] with arg2 := 0x0FFD }) = some .launchOverlap := by decide

/-! ## Steps -/

/-- A command word placed with `withFetchWord` runs in the next step: LEN sets BUSY. -/
theorem test_fetchWord_runs : (nextOf (step (State.reset.withFetchWord 32 5))).map (·.status) = some 1 := by
  decide

/-- P4: an illegal word stays in CMD and sets ERR = ILLEGAL_CMD. -/
theorem test_illegal_word : (nextOf (step (withMoves [.hostWrite 0 4 0x13]))).map
    (fun s => (s.cmd, s.status)) = some (0x13, 6) := by decide

/-- P5: a write to ARG1 during the scan is lost; after the completion it is stored. -/
theorem test_write_during_scan :
    (nextOf (step (running .len [.hostWrite 8 4 1]))).map (·.arg1) = some 3 ∧
    (nextOf (step { engineStep (running .len []) with pending := [.hostWrite 8 4 1] })).map (·.arg1) =
      some 1 := by decide

/-- `10_state.md` R23: a misaligned and a narrow register access are refused. -/
theorem test_odd_register_access :
    refusalOf (step (withMoves [.hostRead 2 4])) = some .registerAccessAlignment ∧
    refusalOf (step (withMoves [.hostRead 4 1])) = some .registerAccessWidth ∧
    refusalOf (step (withMoves [.hostRead 64 4])) = some .registerAccessOutsideWindow := by decide

/-! ## Witnesses: the hypotheses of each statement, met together -/

theorem running_inv (kind : ScanKind) (l : List Move) : (running kind l).Inv := by
  have hl : launchProblem State.reset.plat
      (scanOperands kind (withInput [0x41, 0x42, 0x43])) = none := by
    cases kind <;> decide
  have hm : Memory.wf (withInput [0x41, 0x42, 0x43]).mem = true ∧
      ∀ c ∈ (withInput [0x41, 0x42, 0x43]).mem, c.1 < Config.memSize := by decide
  refine ⟨hm.1, hm.2, withBusy_toNat_lt _ _, busyField_withBusy _ _, fun c hc => ?_⟩
  have hc' : scanOperands kind (withInput [0x41, 0x42, 0x43]) = c := Option.some.inj hc
  subst hc'
  exact ⟨rfl, rfl, rfl, rfl, hl, Nat.zero_le _, le_rfl⟩

theorem witness_OpcodeMapDecodes : (7 ≤ 7 ∧ 7 ≤ 15) ∧ (7 ≤ 15 ∧ 15 ≤ 15) := by decide

theorem witness_DecodeEncodeAgree :
    Instr.xfw.wellFormed = true ∧ decode 1 = .ok .cls ∧ decode 6 = .ok .xfw := by decide

theorem witness_StepRunsTheIssuedCommand : ∃ (s : State) (rest : List Move) (w : Word) (i : Instr),
    s.pending = .hostWrite s.plat.regBase 4 w :: rest ∧ s.busy = false ∧ decode w = .ok i :=
  ⟨withMoves [.hostWrite 0 4 3], [], 3, .enc, rfl, rfl, rfl⟩

theorem witness_FetchWordIsIssuedNext : ∃ (w : Word) (i : Instr), decode w = .ok i :=
  ⟨4, .dec, rfl⟩

theorem witness_IllegalWordOnlySignals : ∃ (s : State) (rest : List Move) (w : Word),
    s.pending = .hostWrite s.plat.regBase 4 w :: rest ∧ s.busy = false ∧
    ¬ (1 ≤ w.toNat ∧ w.toNat ≤ 6) :=
  ⟨withMoves [.hostWrite 0 4 7], [], 7, rfl, rfl, by decide⟩

theorem witness_WritesWhileBusyAreLost :
    (∃ (s : State) (v : Word) (rest : List Move), s.busy = true ∧
      s.pending = .hostWrite (s.plat.regBase + 0) 4 v :: rest) ∧
    (∃ (s : State) (rest : List Move), s.busy = true ∧
      s.pending = .hostRead (s.plat.regBase + 60) 4 :: rest) ∧ 60 < 64 ∧ 60 % 4 = 0 :=
  ⟨⟨running .len [.hostWrite 0 4 6], 6, [], rfl, rfl⟩,
    ⟨running .xfw [.hostRead 60 4], [], rfl, rfl⟩, by decide⟩

theorem witness_RegisterReadsHaveNoSideEffect : ∃ (s : State) (rest : List Move),
    s.pending = .hostRead (s.plat.regBase + 0x18) 4 :: rest ∧ 0x18 < 64 ∧ 0x18 % 4 = 0 :=
  ⟨withMoves [.hostRead 0x18 4], [], rfl, by decide⟩

theorem witness_ReservedOffsetsReadZeroIgnoreWrites :
    (∃ (s : State) (rest : List Move),
      s.pending = .hostRead (s.plat.regBase + 0x1C) 4 :: rest ∧ 0x1C < 64 ∧ 0x1C % 4 = 0) ∧
    (∃ (s : State) (rest : List Move) (v : Word),
      s.pending = .hostWrite (s.plat.regBase + 0x3C) 4 v :: rest ∧ 0x1C ≤ 0x3C ∧ 0x3C < 64 ∧
      0x3C % 4 = 0) :=
  ⟨⟨withMoves [.hostRead 0x1C 4], [], rfl, by decide⟩,
    ⟨withMoves [.hostWrite 0x3C 4 1], [], 1, rfl, by decide⟩⟩

theorem witness_ReadOnlyRegistersIgnoreWrites : ∃ (s : State) (rest : List Move) (v : Word),
    s.pending = .hostWrite (s.plat.regBase + 0x18) 4 v :: rest :=
  ⟨withMoves [.hostWrite 0x18 4 7], [], 7, rfl⟩

theorem witness_ArgumentWritesStore :
    (∃ (s : State) (rest : List Move) (v : Word), s.busy = false ∧
      s.pending = .hostWrite (s.plat.regBase + 0x04) 4 v :: rest) ∧
    (∃ (s : State) (rest : List Move) (v : Word), s.busy = false ∧
      s.pending = .hostWrite (s.plat.regBase + 0x08) 4 v :: rest) ∧
    (∃ (s : State) (rest : List Move) (v : Word), s.busy = false ∧
      s.pending = .hostWrite (s.plat.regBase + 0x0C) 4 v :: rest) :=
  ⟨⟨withMoves [.hostWrite 4 4 9], [], 9, rfl, rfl⟩, ⟨withMoves [.hostWrite 8 4 9], [], 9, rfl, rfl⟩,
    ⟨withMoves [.hostWrite 12 4 9], [], 9, rfl, rfl⟩⟩

theorem witness_OddRegisterAccessesAreRefused :
    (∃ (s : State) (rest : List Move) (v : Word),
      s.pending = .hostWrite (s.plat.regBase + 63) 4 v :: rest ∧ 63 < 64 ∧ 63 % 4 ≠ 0) ∧
    (∃ (s : State) (rest : List Move),
      s.pending = .hostRead (s.plat.regBase + 0) 8 :: rest ∧ 8 ≠ 4) :=
  ⟨⟨withMoves [.hostWrite 63 4 1], [], 1, rfl, by decide⟩, ⟨withMoves [.hostRead 0 8], [], rfl, by decide⟩⟩

/-- Both bounds of every range of `40_classifier.md` R61, where the clauses of the statement meet. -/
theorem witness_ClsReportsClassAndPayload :
    byteNat (withArg0 0x7F).arg0 0 = 0x7F ∧ byteNat (withArg0 0x80).arg0 0 = 0x80 ∧
    byteNat (withArg0 0xBF).arg0 0 = 0xBF ∧ byteNat (withArg0 0xC0).arg0 0 = 0xC0 ∧
    byteNat (withArg0 0xDF).arg0 0 = 0xDF ∧ byteNat (withArg0 0xE0).arg0 0 = 0xE0 ∧
    byteNat (withArg0 0xEF).arg0 0 = 0xEF ∧ byteNat (withArg0 0xF0).arg0 0 = 0xF0 ∧
    byteNat (withArg0 0xF7).arg0 0 = 0xF7 ∧ byteNat (withArg0 0xF8).arg0 0 = 0xF8 := by decide

theorem witness_CextExtractsPayload :
    (0x80 ≤ byteNat (withArg0 0xBF).arg0 0 ∧ byteNat (withArg0 0xBF).arg0 0 ≤ 0xBF) ∧
    ¬ (0x80 ≤ byteNat (withArg0 0x7F).arg0 0 ∧ byteNat (withArg0 0x7F).arg0 0 ≤ 0xBF) := by decide

/-- Both bounds of every range of `41_encoder.md` R68. -/
theorem witness_EncPacksTheUnit :
    (withArg0 127).arg0.toNat = 127 ∧ (withArg0 128).arg0.toNat = 128 ∧
    (withArg0 2047).arg0.toNat = 2047 ∧ (withArg0 2048).arg0.toNat = 2048 ∧
    (withArg0 65535).arg0.toNat = 65535 ∧ (withArg0 65536).arg0.toNat = 65536 ∧
    (withArg0 1114111).arg0.toNat = 1114111 ∧ (withArg0 1114112).arg0.toNat = 1114112 := by decide

theorem witness_EncOutOfRangeWritesOnlyErr : ∃ s t : State, exec .enc s = .next t ∧
    1114111 < s.arg0.toNat :=
  ⟨withArg0 1114112, _, rfl, by decide⟩

/-- A window in each row of `42_decoder.md` R80 at a bound of the row, and three in none. -/
theorem witness_DecAcceptsExactlyTheTable :
    unitTable 0x7F 0xFF 0xFF 0xFF = some (0x7F, 1) ∧ unitTable 0xC2 0x80 0xFF 0xFF = some (0x80, 2) ∧
    unitTable 0xE0 0xA0 0x80 0xFF = some (0x800, 3) ∧
    unitTable 0xEF 0xBF 0xBF 0xFF = some (0xFFFF, 3) ∧
    unitTable 0xF0 0x90 0x80 0x80 = some (0x10000, 4) ∧
    unitTable 0xF3 0xBF 0xBF 0xBF = some (0xFFFFF, 4) ∧
    unitTable 0xF4 0x8F 0xBF 0xBF = some (0x10FFFF, 4) ∧
    unitTable 0xC1 0xBF 0 0 = none ∧ unitTable 0xF4 0x90 0x80 0x80 = none ∧
    unitTable 0xF8 0 0 0 = none := by decide

theorem witness_CodecRoundTrip : ∃ (c : Nat) (win : Window) (w : Nat), c ≤ 1114111 ∧
    encodeFn c = .ok (win.toList.take w) w ∧ decodeFn win = .ok c w :=
  ⟨1114111, ⟨0xF4, 0x8F, 0xBF, 0xBF⟩, 4, by decide, rfl, rfl⟩

theorem witness_EncThenDecRestores : (withArg0 1114111).arg0.toNat ≤ 1114111 := by decide

theorem witness_DecThenEncReproduces : ∃ s t : State, exec .dec s = .next t ∧ t.err = 0 :=
  ⟨withArg0 0x424180C2, _, rfl, rfl⟩

theorem witness_BytesPastTheWidthDoNotMatter : ∃ (win win' : Window) (w : Nat),
    (claimedWidth (classify win.b0)).getD 1 = w ∧ win.toList.take w = win'.toList.take w ∧ win ≠ win' :=
  ⟨⟨0xC2, 0x80, 0x41, 0x42⟩, ⟨0xC2, 0x80, 0xFF, 0xFF⟩, 2, by decide⟩

theorem witness_ScanMakesProgress : ∃ (n : Nat) (l : ScanLoop), l.p < n ∧ l.p ≤ n :=
  ⟨1, ⟨0, 0, []⟩, by decide, by decide⟩

/-- A loop state for each clause: no lead pattern, truncated, invalid, valid. -/
theorem witness_ScanSkipsByClaimedWidth :
    (Memory.read [(0, 0x80)] (0 + 0)).toNat = 0x80 ∧
    ((Memory.read [(0, 0xF7)] (0 + 0)).toNat = 0xF7 ∧ 3 < 0 + 4) ∧
    ((Memory.read [(0, 0xC0)] (0 + 0)).toNat = 0xC0 ∧ 0 + 2 ≤ 2 ∧
      decodeFn (scanWindow [(0, 0xC0)] (0 + 0) 2) = .invalid) ∧
    ((Memory.read [(0, 0x7F)] (0 + 0)).toNat = 0x7F ∧ 0 + 1 ≤ 1 ∧
      decodeFn (scanWindow [(0, 0x7F)] (0 + 0) 1) = .ok 0x7F 1) := by decide

theorem ready_of_whole {p : Platform} {r : Span} (hp : p = State.reset.plat)
    (h : r.start + r.len ≤ 2 ^ 32) : r.ready p := by
  subst hp
  refine ⟨h, fun a h1 h2 => ?_⟩
  have h3 : a < 4294967296 := by omega
  simp [Platform.admits, Platform.hasSideEffect, Region.covers, State.reset, h3]

/-- LEN may launch up to the very end of memory and not past it. -/
theorem witness_LenCountsValidUnits :
    lenMayLaunch (withInput [0x41, 0x42]) ∧
    lenMayLaunch { State.reset with arg0 := 0xFFFFFFFF, arg1 := 1 } ∧
    ¬ lenMayLaunch { State.reset with arg0 := 0xFFFFFFFF, arg1 := 2 } :=
  ⟨ready_of_whole rfl (by decide), ready_of_whole rfl (by decide), fun h => absurd h.1 (by decide)⟩

/-- XFW may launch with its regions side by side and not with a byte shared. -/
theorem witness_XfwWritesCodePoints :
    (xfwMayLaunch { withInput [0x41] with arg2 := 0x1001 } ∧
      ({ withInput [0x41] with arg2 := 0x1001 } : State).mem.wf = true) ∧
    ¬ xfwMayLaunch { withInput [0x41] with arg2 := 0x1000 } := by
  refine ⟨⟨⟨ready_of_whole rfl (by decide), ready_of_whole rfl (by decide), ?_⟩, by decide⟩,
    fun h => h.2.2 0x1000 (by decide) (by decide) (by decide) (by decide)⟩
  intro a _ h2 h3 _
  have h2' : a < 0x1001 := h2
  have h3' : 0x1001 ≤ a := h3
  omega

theorem witness_LenAndXfwAgree : ∃ s t : State, exec .xfw s = .next t :=
  ⟨withInput [0xE2, 0x82, 0xAC], _, rfl⟩

theorem witness_CountIsAtMostLength : ∃ (s t : State), exec .len s = .next t :=
  ⟨withInput [0x41, 0x42], _, rfl⟩

theorem witness_ReencodedOutputIsValidInput : ∃ s t : State,
    exec .xfw s = .next t ∧ s.mem.wf = true :=
  ⟨withInput [0xC0, 0xAF, 0x41], _, rfl, by decide⟩

theorem witness_ScanDependsOnInputRegionOnly : ∃ s s' t t' : State,
    s.arg0 = s'.arg0 ∧ s.arg1 = s'.arg1 ∧ s.arg2 = s'.arg2 ∧ s.mem.wf = true ∧ s'.mem.wf = true ∧
    (∀ a, s.arg0.toNat ≤ a → a < s.arg0.toNat + s.arg1.toNat → s.mem.read a = s'.mem.read a) ∧
    exec .xfw s = .next t ∧ exec .xfw s' = .next t' ∧ s.mem ≠ s'.mem := by
  refine ⟨withInput [0x41], { withInput [0x41] with mem := [(0x1000, 0x41), (0x1001, 0x42)] }, _, _,
    rfl, rfl, rfl, by decide, by decide, ?_, rfl, rfl, by decide⟩
  intro a h1 h2
  have h1' : 0x1000 ≤ a := h1
  have h2' : a < 0x1001 := h2
  obtain rfl : a = 0x1000 := by omega
  decide

theorem witness_ShortCommandsHaveNoHiddenState : ∃ s s' t t' : State,
    s.arg0 = s'.arg0 ∧ exec .enc s = .next t ∧ exec .enc s' = .next t' ∧ t.err ≠ 1 ∧ s ≠ s' :=
  ⟨withArg0 5, { withArg0 5 with res0 := 9 }, _, _, rfl, rfl, rfl, by decide, by decide⟩

theorem witness_CompletionNeverReportsAnError : ∃ (s : State) (c : ScanCtx), s.scan = some c :=
  ⟨running .xfw [], _, rfl⟩

theorem witness_ScanStraightAfterResetReturnsZero : ∃ w : Word, w = 0x00000005 ∨ w = 0x00000006 :=
  ⟨5, .inl rfl⟩

theorem witness_EngineMoveIsTheEngineStep :
    (running .len []).pending = [] ∧ ∃ (s : State) (rest : List Move), s.pending = .engine :: rest :=
  ⟨rfl, running .xfw [.engine], [], rfl⟩

theorem witness_NothingMovesWhileBusy : ∃ (s t : State) (c : ScanCtx) (r : Span) (a : Nat),
    step s = .next t ∧ s.busy = true ∧ t.busy = true ∧ s.scan = some c ∧ r ∈ c.regions ∧
    r.holds a = true :=
  ⟨running .xfw [.memWrite 0x3000 [1]], _, _, _, 0x200B, rfl, rfl, rfl, rfl,
    List.mem_cons_of_mem _ (List.mem_cons_self ..), by decide⟩

theorem witness_BusyFollowsTheScan :
    (∃ s t : State, step s = .next t ∧ s.busy = false ∧ t.busy = true) ∧
    (∃ s t : State, step s = .next t ∧ s.busy = true ∧ t.busy = false) :=
  ⟨⟨withMoves [.hostWrite 0 4 5], _, rfl, rfl, rfl⟩, ⟨running .len [.engine], _, rfl, rfl, rfl⟩⟩

theorem witness_ErrChangesOnlyAtCompletion : ∃ s t : State,
    s.Inv ∧ step s = .next t ∧ t.err ≠ s.err := by
  refine ⟨withMoves [.hostWrite 0 4 0], _, ⟨rfl, ?_, by decide, rfl, ?_⟩, rfl, by decide⟩
  · intro c hc
    cases hc
  · intro c hc
    cases hc

/-- A next state for each clause, and ERR as each clause gives it. -/
theorem witness_ErrCodesHaveTheirWriters :
    (∃ s t : State, exec .cls s = .next t) ∧ (∃ s t : State, exec .cext s = .next t ∧ t.err = 2) ∧
    (∃ s t : State, exec .enc s = .next t ∧ t.err = 1) ∧
    (∃ s t : State, exec .dec s = .next t ∧ t.err = 2) ∧ (∃ s t : State, exec .len s = .next t) ∧
    (∃ s t : State, exec .xfw s = .next t) :=
  ⟨⟨withArg0 0x41, _, rfl⟩, ⟨withArg0 0x41, _, rfl, rfl⟩, ⟨withArg0 0x110000, _, rfl, rfl⟩,
    ⟨withArg0 0x80, _, rfl, rfl⟩, ⟨withInput [0x41], _, rfl⟩, ⟨withInput [0x41], _, rfl⟩⟩

theorem witness_NothingTraps : ∃ (s : State) (f : Fault), step s = .fault f :=
  ⟨withMoves [.memRead 0xFFFFFFFF 2], .hostAddressOutOfSpace, rfl⟩

theorem witness_StepKeepsInvariant : ∃ s t : State, s.Inv ∧ step s = .next t ∧ s.busy = true :=
  ⟨running .xfw [.engine], _, running_inv _ _, rfl, rfl⟩

theorem witness_OpenParametersNeverChange : ∃ s t : State, step s = .next t :=
  ⟨running .len [.reset], _, rfl⟩

theorem witness_WaitEndsWhenTheScanCompletes :
    (∃ (s : State) (rest : List Move), s.pending = .wait 0 :: rest ∧ s.busy = false) ∧
    (∃ (s : State) (rest : List Move) (c : ScanCtx), s.pending = .wait 2 :: rest ∧ s.busy = true ∧
      s.scan = some c) :=
  ⟨⟨withMoves [.wait 0], [], rfl, rfl⟩, ⟨running .len [.wait 2], [], _, rfl, rfl, rfl⟩⟩

theorem witness_EveryRunEnds : ∃ s t : State,
    s.Inv ∧ Host.Core.run core s.work s = .next t ∧ s.busy = true :=
  ⟨running .len [.wait 0], _, running_inv _ _, rfl, rfl⟩

theorem witness_ResetClearsTheBlock : ∃ (s : State) (rest : List Move), s.pending = .reset :: rest :=
  ⟨running .xfw [.reset], [], rfl⟩

theorem witness_ResetLeavesTheHostAlone :
    (∃ (s : State) (rest : List Move), s.pending = .reset :: rest ∧ s.scan = none) ∧
    (∃ (s : State) (rest : List Move), s.pending = .reset :: rest ∧ s.scan ≠ none) :=
  ⟨⟨withMoves [.reset], [], rfl, rfl⟩, ⟨running .xfw [.reset], [], rfl, Option.some_ne_none _⟩⟩

/-- A byte of the input region and the one just past the output region. -/
theorem witness_ResetDuringScanSparesTheRest :
    (∃ (s : State) (rest : List Move) (c : ScanCtx), s.Inv ∧ s.pending = .reset :: rest ∧
      s.scan = some c ∧ c.kind = .xfw ∧ c.input.holds 0x1002 = true ∧ c.output.holds 0x200C = false) ∧
    (∃ (s : State) (rest : List Move) (c : ScanCtx), s.Inv ∧ s.pending = .reset :: rest ∧
      s.scan = some c ∧ c.kind = .len) :=
  ⟨⟨running .xfw [.reset], [], _, running_inv _ _, rfl, rfl, rfl, by decide, by decide⟩,
    ⟨running .len [.reset], [], _, running_inv _ _, rfl, rfl, rfl⟩⟩

/-- A write that reaches the last byte of the input region and one that reaches the last of the
output region. -/
theorem witness_HostWriteToScanRegionIsRefused :
    (∃ (s : State) (rest : List Move) (c : ScanCtx), s.pending = .memWrite 0x1002 [1] :: rest ∧
      s.scan = some c ∧ (Span.mk 0x1002 1).ready s.plat ∧
      c.base.toNat ≤ 0x1002 ∧ 0x1002 < c.base.toNat + c.n.toNat) ∧
    (∃ (s : State) (rest : List Move) (c : ScanCtx), s.pending = .memWrite 0x200B [1] :: rest ∧
      s.scan = some c ∧ (Span.mk 0x200B 1).ready s.plat ∧ c.kind = .xfw ∧
      c.out.toNat ≤ 0x200B ∧ 0x200B < c.out.toNat + 4 * c.n.toNat) :=
  ⟨⟨running .len [.memWrite 0x1002 [1]], [], _, rfl, rfl, ready_of_whole rfl (by decide), by decide,
      by decide⟩,
    ⟨running .xfw [.memWrite 0x200B [1]], [], _, rfl, rfl, ready_of_whole rfl (by decide), rfl,
      by decide, by decide⟩⟩

theorem witness_HostMemoryReadsBackWhatWasWritten : ∃ (s : State) (rest : List Move),
    s.pending = .memWrite 0xFFFFFFFF [7] :: .memRead 0xFFFFFFFF 1 :: rest ∧ s.scan = none ∧
    s.mem.wf = true ∧ (Span.mk 0xFFFFFFFF 1).ready s.plat :=
  ⟨withMoves [.memWrite 0xFFFFFFFF [7], .memRead 0xFFFFFFFF 1], [], rfl, rfl, rfl,
    ready_of_whole rfl (by decide)⟩

/-- A read that reaches the last byte of the output region and the one past it. -/
theorem witness_HostReadDuringXfwReturnsStoredBytesOutside :
    ∃ (s : State) (rest : List Move) (c : ScanCtx),
      s.pending = .memRead 0x200B 2 :: rest ∧ s.scan = some c ∧ c.kind = .xfw ∧
      (Span.mk 0x200B 2).ready s.plat ∧ c.output.holds 0x200B = true ∧
      c.output.holds (0x200B + 1) = false :=
  ⟨running .xfw [.memRead 0x200B 2], [], _, rfl, rfl, rfl, ready_of_whole rfl (by decide),
    by decide, by decide⟩

end Sys2Proof.Tests
end

section
/-! PROOF. A decoded unit, encoded again, gives its own bytes back (`00_scope.md` R13): `decodeFn` is
inverted by `encodeFn`, and a packed register is read byte by byte. -/

namespace Sys2Proof.Machine

/-! ## Encoding inverts decoding -/

/-- A continuation byte is the one the encoder makes of any value whose k-th chunk is its payload. -/
theorem contByte_eq_of_cont {b : Byte} {c k : Nat} (hb : classify b = .cont)
    (hc : c / 2 ^ (6 * k) % 64 = b.toNat % 64) : contByte c k = b := by
  obtain ⟨hlo, hhi⟩ := (classify_eq_cont_iff b).1 hb
  apply BitVec.eq_of_toNat_eq
  rw [contByte_toNat, hc]
  omega

theorem encodeFn_of_decodeFn_single {win : Window} {v w : Nat} (hc : classify win.b0 = .single)
    (h : decodeFn win = .ok v w) : encodeFn v = .ok (win.toList.take w) w := by
  have hb0 := (classify_eq_single_iff _).1 hc
  rw [decodeFn_single hc] at h
  cases h
  have hlead : leadByte 0 win.b0.toNat = win.b0 :=
    BitVec.eq_of_toNat_eq (leadByte_one (by omega))
  rw [encodeFn_one (by omega), hlead]
  rfl

theorem encodeFn_of_decodeFn_lead2 {win : Window} {v w : Nat} (hc : classify win.b0 = .lead2)
    (h : decodeFn win = .ok v w) : encodeFn v = .ok (win.toList.take w) w := by
  obtain ⟨hlo, hhi⟩ := (classify_eq_lead2_iff _).1 hc
  rw [decodeFn_lead2 hc] at h
  split at h
  case isFalse => cases h
  case isTrue hunit =>
    obtain ⟨h1, hmin⟩ := hunit
    injection h with hv hw
    subst hw
    have hlead : leadByte 0xC0 (v >>> 6) = win.b0 :=
      BitVec.eq_of_toNat_eq (by rw [leadByte_two (by omega)]; omega)
    rw [encodeFn_two (by omega) (by omega), hlead, contByte_eq_of_cont h1 (by omega)]
    rfl

theorem encodeFn_of_decodeFn_lead3 {win : Window} {v w : Nat} (hc : classify win.b0 = .lead3)
    (h : decodeFn win = .ok v w) : encodeFn v = .ok (win.toList.take w) w := by
  obtain ⟨hlo, hhi⟩ := (classify_eq_lead3_iff _).1 hc
  rw [decodeFn_lead3 hc] at h
  split at h
  case isFalse => cases h
  case isTrue hunit =>
    obtain ⟨h1, h2, hmin⟩ := hunit
    injection h with hv hw
    subst hw
    have hlead : leadByte 0xE0 (v >>> 12) = win.b0 :=
      BitVec.eq_of_toNat_eq (by rw [leadByte_three (by omega)]; omega)
    rw [encodeFn_three (by omega) (by omega), hlead, contByte_eq_of_cont h1 (by omega),
      contByte_eq_of_cont h2 (by omega)]
    rfl

theorem encodeFn_of_decodeFn_lead4 {win : Window} {v w : Nat} (hc : classify win.b0 = .lead4)
    (h : decodeFn win = .ok v w) : encodeFn v = .ok (win.toList.take w) w := by
  obtain ⟨hlo, hhi⟩ := (classify_eq_lead4_iff _).1 hc
  rw [decodeFn_lead4 hc] at h
  split at h
  case isFalse => cases h
  case isTrue hunit =>
    obtain ⟨h1, h2, h3, hmin, hmax⟩ := hunit
    injection h with hv hw
    subst hw
    have hlead : leadByte 0xF0 (v >>> 18) = win.b0 :=
      BitVec.eq_of_toNat_eq (by rw [leadByte_four (by omega)]; omega)
    rw [encodeFn_four (by omega) (by omega), hlead, contByte_eq_of_cont h1 (by omega),
      contByte_eq_of_cont h2 (by omega), contByte_eq_of_cont h3 (by omega)]
    rfl

/-- A decoded unit encodes to the bytes it was decoded from (`00_scope.md` R13). -/
theorem encodeFn_of_decodeFn {win : Window} {v w : Nat} (h : decodeFn win = .ok v w) :
    encodeFn v = .ok (win.toList.take w) w := by
  cases hc : classify win.b0 with
  | single => exact encodeFn_of_decodeFn_single hc h
  | lead2 => exact encodeFn_of_decodeFn_lead2 hc h
  | lead3 => exact encodeFn_of_decodeFn_lead3 hc h
  | lead4 => exact encodeFn_of_decodeFn_lead4 hc h
  | cont => rw [decodeFn_cont hc] at h; cases h
  | invalid => rw [decodeFn_invalid hc] at h; cases h

/-- What encodes is a code point, and its unit has at most four bytes (`41_encoder.md` R68, R70). -/
theorem encodeFn_ok_bounds {c w : Nat} {bytes : List Byte} (h : encodeFn c = .ok bytes w) :
    c ≤ Config.cpMax ∧ w ≤ 4 := by
  have hmax : Config.cpMax = 1114111 := rfl
  rcases encodeFn_cases c with ⟨hc, he⟩ | ⟨-, hc, he⟩ | ⟨-, hc, he⟩ | ⟨-, hc, he⟩ | ⟨-, he⟩ <;>
    rw [he] at h <;> cases h <;> omega

/-! ## Bytes of a register -/

theorem byteOf_toNat_eq_byteNat (w : Word) (k : Nat) : (byteOf w k).toNat = byteNat w k := by
  rw [byteOf_toNat, byteNat, Nat.pow_mul]

theorem pack_lt (l : List Byte) : pack l < 256 ^ l.length := by
  induction l with
  | nil => simp
  | cons b l ih =>
    rw [pack_cons, List.length_cons, Nat.pow_succ]
    have := b.isLt
    omega

/-- Byte k of a packed list is its k-th byte, 0 past its end (`41_encoder.md` R71). -/
theorem pack_div_mod (l : List Byte) (k : Nat) : pack l / 256 ^ k % 256 = (l.getD k 0).toNat := by
  induction l generalizing k with
  | nil => simp
  | cons b l ih =>
    have hb := b.isLt
    rw [pack_cons]
    cases k with
    | zero =>
      rw [Nat.pow_zero, Nat.div_one, List.getD_cons_zero]
      omega
    | succ k =>
      rw [Nat.pow_succ', ← Nat.div_div_eq_div_mul,
        show (b.toNat + 256 * pack l) / 256 = pack l by omega, ih, List.getD_cons_succ]

theorem byteNat_zext32_pack {l : List Byte} (hl : l.length ≤ 4) (k : Nat) :
    byteNat (zext32 (pack l)) k = (l.getD k 0).toNat := by
  have hlt : pack l < 2 ^ 32 :=
    calc pack l < 256 ^ l.length := pack_lt l
      _ ≤ 256 ^ 4 := Nat.pow_le_pow_right (by omega) hl
      _ = 2 ^ 32 := by norm_num
  rw [byteNat, zext32_toNat hlt, pack_div_mod]

theorem windowOperand_getD (s : State) {k : Nat} (hk : k < 4) :
    (windowOperand s).toList.getD k 0 = byteOf s.arg0 k := by
  match k, hk with
  | 0, _ => rfl
  | 1, _ => rfl
  | 2, _ => rfl
  | 3, _ => rfl

/-- The first w bytes of DEC's window, packed, hold ARG0's bytes below w and 0 above. -/
theorem byteNat_pack_windowOperand_take (s : State) (w : Nat) {k : Nat} (hk : k < 4) :
    byteNat (zext32 (pack ((windowOperand s).toList.take w))) k =
      if k < w then byteNat s.arg0 k else 0 := by
  have hlen : ((windowOperand s).toList.take w).length ≤ 4 := List.length_take_le' _ _
  rw [byteNat_zext32_pack hlen, List.getD_eq_getElem?_getD, List.getElem?_take]
  split
  · rw [← List.getD_eq_getElem?_getD, windowOperand_getD s hk, byteOf_toNat_eq_byteNat]
  · rfl

/-! ## DEC, then ENC -/

/-- ENC on a code point that encodes. -/
theorem exec_enc_of_ok {s : State} {bytes : List Byte} {w : Nat}
    (h : encodeFn s.arg0.toNat = .ok bytes w) :
    exec .enc s = .next ((s.writeResults (zext32 (pack bytes)) (zext32 w)).signal .none) := by
  rcases exec_enc_cases s with ⟨bytes', w', he, hx⟩ | ⟨he, -⟩ <;>
    rw [codePointOperand, h] at he <;> cases he
  exact hx

/-- DEC reports NONE only where its window decodes. -/
theorem exec_dec_of_err_none {s t : State} (h : exec .dec s = .next t) (he : t.err = 0) :
    ∃ cp w, decodeFn (windowOperand s) = .ok cp w ∧
      t = (s.writeResults (zext32 cp) (zext32 w)).signal .none := by
  rcases exec_dec_cases s with ⟨cp, w, hd, hx⟩ | ⟨-, hx⟩ <;> rw [hx] at h <;> cases h
  · exact ⟨cp, w, hd, rfl⟩
  · rw [State.err_signal] at he
    exact absurd he (by decide)

/-- Settles O19: the window that DEC decodes is what ENC makes of the code point, and ENC packs it. -/
theorem decThenEncReproduces : Obligations.DecThenEncReproduces := by
  intro s t hdec herr
  obtain ⟨cp, w, hd, rfl⟩ := exec_dec_of_err_none hdec herr
  have henc := encodeFn_of_decodeFn hd
  obtain ⟨hcp, hw⟩ := encodeFn_ok_bounds henc
  have hcpNat : (zext32 cp).toNat = cp :=
    zext32_toNat (Nat.lt_of_le_of_lt hcp (by decide))
  have hwNat : (zext32 w).toNat = w := zext32_toNat (by omega)
  refine ⟨_, exec_enc_of_ok (bytes := (windowOperand s).toList.take w) (w := w) ?_, ?_, ?_, ?_⟩
  · simpa [hcpNat] using henc
  · exact State.err_signal _ _
  · simp
  · intro k hk
    simpa [hwNat] using byteNat_pack_windowOperand_take s w hk

end Sys2Proof.Machine
end

section
/-! PROOF. Host accesses to the register window and reset (`10_state.md` R20 to R25, R30): an aligned
32-bit access reaches the register at its offset, any other is refused, and reset ends in
`State.resetRegisters`, whatever it did to memory before. -/

namespace Sys2Proof.Machine

/-! ## The register at an offset -/

/-- From 0x1C on the window holds no register (`10_state.md` R22). -/
theorem regAt_of_reserved {off : Nat} (h : 0x1C ≤ off) : regAt off = .reserved := by
  unfold regAt
  split
  case h_8 => rfl
  all_goals omega

@[simp] theorem State.readReg_withPending (s : State) (l : List Move) (r : Reg) :
    (s.withPending l).readReg r = s.readReg r := rfl

theorem packStatus_toNat (b : Bool) (e : BitVec 2) :
    (packStatus b e).toNat = b.toNat + 2 * e.toNat := by
  revert b e; decide

/-- STATUS as the host reads it, as a number: BUSY in bit 0, ERR above it (`10_state.md` R21). -/
theorem State.readReg_status_toNat (s : State) :
    (s.readReg .status).toNat = s.busy.toNat + 2 * s.err.toNat :=
  packStatus_toNat _ _

/-! ## Register writes that are lost -/

theorem State.writeReg_of_busy {s : State} (h : s.busy = true) (r : Reg) (v : Word) :
    s.writeReg r v = s := if_pos h

theorem State.writeReg_reserved (s : State) (v : Word) : s.writeReg .reserved v = s := by
  rcases writeReg_cases s .reserved v with h | ⟨-, ⟨hr, -⟩ | ⟨hr, -⟩ | ⟨hr, -⟩⟩
  · exact h
  all_goals cases hr

/-- A write that is not a CMD write to an idle block issues nothing. -/
theorem hostWriteReg_of_not_issue {r : Reg} {s : State} (h : ¬ (r = .cmd ∧ s.busy = false))
    (v : Word) : hostWriteReg r v s = .next (s.writeReg r v) := if_neg h

theorem hostWriteReg_of_busy {s : State} (h : s.busy = true) (r : Reg) (v : Word) :
    hostWriteReg r v s = .next s := by
  rw [hostWriteReg_of_not_issue (by simp [h]), State.writeReg_of_busy h]

theorem hostWriteReg_reserved (s : State) (v : Word) : hostWriteReg .reserved v s = .next s := by
  rw [hostWriteReg_of_not_issue (by simp), State.writeReg_reserved]

/-! ## The step of a register access -/

section
variable {s : State} {rest : List Move} {off : Nat}

/-- Every aligned 32-bit access in the window is an access to a register (`10_state.md` R15, R23). -/
theorem registerAccessProblem_of_aligned (p : Platform) (hoff : off < 64) (halign : off % 4 = 0) :
    registerAccessProblem p (p.regBase + off) 4 = none := by
  rw [registerAccessProblem_eq_none_iff, Config.windowSize, Nat.add_sub_cancel_left]
  omega

/-- An access of another width or alignment is none (`10_state.md` R23). -/
theorem registerAccessProblem_of_odd (p : Platform) {width : Nat} (h : width ≠ 4 ∨ off % 4 ≠ 0) :
    ∃ r, registerAccessProblem p (p.regBase + off) width = some r := by
  rw [← Option.ne_none_iff_exists', Ne, registerAccessProblem_eq_none_iff, Nat.add_sub_cancel_left]
  omega

theorem regOf_regBase_add (p : Platform) (off : Nat) : p.regOf (p.regBase + off) = regAt off := by
  rw [Platform.regOf, Nat.add_sub_cancel_left]

/-- The step of an aligned write writes the register at the offset. -/
theorem step_hostWrite_of_aligned {v : Word} (hoff : off < 64) (halign : off % 4 = 0)
    (hp : s.pending = .hostWrite (s.plat.regBase + off) 4 v :: rest) :
    step s = hostWriteReg (regAt off) v (s.withPending rest) := by
  simp [step_of_cons hp, makeMove, hostWrite, registerAccessProblem_of_aligned s.plat hoff halign,
    regOf_regBase_add]

/-- The step of an aligned read logs the register's value and changes nothing else
(`10_state.md` R25). -/
theorem step_hostRead_of_aligned (hoff : off < 64) (halign : off % 4 = 0)
    (hp : s.pending = .hostRead (s.plat.regBase + off) 4 :: rest) :
    step s = .next { s with
      pending := rest, reads := s.reads ++ [.word (s.readReg (regAt off))] } := by
  simp only [step_of_cons hp, makeMove, hostRead, State.withPending_plat,
    registerAccessProblem_of_aligned s.plat hoff halign, regOf_regBase_add,
    State.readReg_withPending]
  rfl

theorem step_hostWrite_of_problem {addr width : Nat} {v : Word} {r : Refusal}
    (hp : s.pending = .hostWrite addr width v :: rest)
    (hr : registerAccessProblem s.plat addr width = some r) : step s = .refused r := by
  simp [step_of_cons hp, makeMove, hostWrite, hr]

theorem step_hostRead_of_problem {addr width : Nat} {r : Refusal}
    (hp : s.pending = .hostRead addr width :: rest)
    (hr : registerAccessProblem s.plat addr width = some r) : step s = .refused r := by
  simp [step_of_cons hp, makeMove, hostRead, hr]

end

/-! ## Reset -/

/-- Whether or not a scan runs, reset is `State.resetRegisters` after a change to memory and draws at
most (`10_state.md` R30). -/
theorem resetBlock_eq_resetRegisters (s : State) : ∃ u : State, s.resetBlock = u.resetRegisters := by
  rcases resetBlock_cases s with ⟨-, h⟩ | ⟨c, -, -, h⟩ <;> exact ⟨_, h⟩

/-! ## The obligations -/

/-- Settles O6: no write is an issue while BUSY = 1, and `State.writeReg` drops the others; a read does
not look at BUSY. -/
theorem writesWhileBusyAreLost : Obligations.WritesWhileBusyAreLost := by
  intro s rest off v hbusy hoff halign
  refine ⟨fun hp => ?_, step_hostRead_of_aligned hoff halign⟩
  rw [step_hostWrite_of_aligned hoff halign hp, hostWriteReg_of_busy (by simpa using hbusy)]
  rfl

/-- Settles O7: the value logged is `State.readReg` at the offset, which each clause evaluates. -/
theorem registerReadsHaveNoSideEffect : Obligations.RegisterReadsHaveNoSideEffect := by
  intro s rest off hoff halign hp
  refine ⟨s.readReg (regAt off), step_hostRead_of_aligned hoff halign hp,
    ?cmd, ?arg0, ?arg1, ?arg2, ?res0, ?res1, ?status, ?reserved⟩
  case status => rintro rfl; exact s.readReg_status_toNat
  case reserved => intro h; rw [regAt_of_reserved h]; rfl
  all_goals rintro rfl; rfl

/-- Settles O8: every such offset names `Reg.reserved`, which holds nothing. -/
theorem reservedOffsetsReadZeroIgnoreWrites : Obligations.ReservedOffsetsReadZeroIgnoreWrites := by
  intro s rest off v hres hoff halign
  have hreg := regAt_of_reserved hres
  constructor <;> intro hp
  · rw [step_hostRead_of_aligned hoff halign hp, hreg]
    rfl
  · rw [step_hostWrite_of_aligned hoff halign hp, hreg, hostWriteReg_reserved]
    rfl

/-- Settles O11: such an access names no register, and the refusal is the access problem's own. -/
theorem oddRegisterAccessesAreRefused : Obligations.OddRegisterAccessesAreRefused := by
  intro s rest off width v _ hodd
  obtain ⟨r, hr⟩ := registerAccessProblem_of_odd s.plat hodd
  exact ⟨fun hp => ⟨r, step_hostWrite_of_problem hp hr⟩, fun hp => ⟨r, step_hostRead_of_problem hp hr⟩⟩

/-- Settles O43: reset ends in `State.resetRegisters`, whose fields are the reset values. -/
theorem resetClearsTheBlock : Obligations.ResetClearsTheBlock := by
  intro s rest hp
  obtain ⟨u, hu⟩ := resetBlock_eq_resetRegisters (s.withPending rest)
  refine ⟨u.resetRegisters, ?_, by simp⟩
  rw [step_of_cons hp, makeMove, hu]

end Sys2Proof.Machine
end

section
/-! PROOF. The opcode map (`30_encoding.md` R52 to R54): the word of each command decodes to it, and a
word with RSVD = 0 whose OP is none of the six opcodes is rejected for its opcode. -/

namespace Sys2Proof

/-! ## The fields of a command word (`30_encoding.md` R52) -/

theorem opField_toNat (w : Word) : (opField w).toNat = w.toNat % 16 := by
  simp [opField]

theorem rsvdField_eq_zero_iff (w : Word) : rsvdField w = 0 ↔ w.toNat < 16 := by
  have hw := w.isLt
  rw [rsvdField, ← BitVec.toNat_inj, BitVec.extractLsb'_toNat, Nat.shiftRight_eq_div_pow]
  simp only [BitVec.ofNat_eq_ofNat, BitVec.toNat_ofNat]
  omega

/-! ## The two kinds of word with RSVD = 0 -/

theorem roundTrip_statement : ∀ i : Instr, Laws.RoundTrip.Statement i
  | .cls => Laws.RoundTrip.cls
  | .cext => Laws.RoundTrip.cext
  | .enc => Laws.RoundTrip.enc
  | .dec => Laws.RoundTrip.dec
  | .len => Laws.RoundTrip.len
  | .xfw => Laws.RoundTrip.xfw

theorem decode_encode (i : Instr) : decode (encode i) = .ok i := by
  obtain ⟨-, -, hdec⟩ := roundTrip_statement i
  exact hdec

/-- With RSVD = 0 the word is its own OP, and OP = 0 or OP > 6 names no command. -/
theorem decode_of_reserved_opcode {w : Word} (hrsvd : w.toNat < 16)
    (hop : w.toNat = 0 ∨ 7 ≤ w.toNat) : decode w = .error .reservedOpcode := by
  have hfield : (opField w).toNat = w.toNat := by rw [opField_toNat, Nat.mod_eq_of_lt hrsvd]
  rw [decode, if_neg (not_not_intro ((rsvdField_eq_zero_iff w).2 hrsvd)), hfield]
  split
  case h_7 => rfl
  all_goals omega

/-! ## The obligation -/

/-- Settles O1: the words 1 to 6 are those of the commands, in order, and every other word below 16
has a reserved opcode. -/
theorem opcodeMapDecodes : Obligations.OpcodeMapDecodes := by
  refine ⟨decode_encode .cls, decode_encode .cext, decode_encode .enc, decode_encode .dec,
    decode_encode .len, decode_encode .xfw,
    decode_of_reserved_opcode (by decide) (.inl rfl), fun k hlo hhi => ?_⟩
  have hk : (BitVec.ofNat 32 k).toNat = k := by
    rw [BitVec.toNat_ofNat, Nat.mod_eq_of_lt (by omega)]
  exact decode_of_reserved_opcode (by omega) (.inr (by omega))

end Sys2Proof
end

section
/-! PROOF. The commands CLS and CEXT (`40_classifier.md` R61, R66, R67): the class of ARG0[7:0] is
decided by the range the byte lies in, and in that range the payload is the byte without its tag. -/

namespace Sys2Proof.Machine

/-! ## What a short command leaves as it was -/

/-- Results written and an ERR code signalled: RES0, RES1 and ERR are all that changes. -/
theorem shortFrame_signal_writeResults (s : State) (r0 r1 : Word) (e : Err) :
    ShortFrame s ((s.writeResults r0 r1).signal e) where
  cmd := rfl
  arg0 := rfl
  arg1 := rfl
  arg2 := rfl
  busy := by simp
  statusReserved := withErr_toNat_lt _ _
  scan := rfl
  bytes _ := rfl
  plat := rfl
  pending := rfl
  reads := rfl
  draws := rfl

/-! ## The byte operand and its payload -/

theorem byteOperand_toNat (s : State) : (byteOperand s).toNat = byteNat s.arg0 0 :=
  byteOf_toNat_eq_byteNat s.arg0 0

theorem payload_lt (b : Byte) : payload b < 128 := by
  cases hc : classify b with
  | single => rw [payload_of_single hc]; exact (classify_eq_single_iff b).1 hc
  | cont => rw [payload_of_cont hc]; omega
  | lead2 => rw [payload_of_lead2 hc]; omega
  | lead3 => rw [payload_of_lead3 hc]; omega
  | lead4 => rw [payload_of_lead4 hc]; omega
  | invalid => rw [payload_of_invalid hc]; omega

theorem zext32_payload_toNat (b : Byte) : (zext32 (payload b)).toNat = payload b :=
  zext32_toNat (Nat.lt_trans (payload_lt b) (by decide))

theorem zext32_contPayload_toNat (b : Byte) : (zext32 (contPayload b)).toNat = contPayload b :=
  zext32_toNat (Nat.lt_trans (contPayload_lt b) (by decide))

/-- The two words CLS writes, for a byte whose class and payload are known. -/
theorem clsResults_of_class {b : Byte} {k : ByteClass} {p : Nat} (hk : classify b = k)
    (hp : payload b = p) :
    zext32 (classCode (classify b)) = zext32 (classCode k) ∧ (zext32 (payload b)).toNat = p :=
  ⟨by rw [hk], by rw [zext32_payload_toNat, hp]⟩

/-! ## The obligations -/

/-- Settles O12: each range is that of one class, and taking the tag off a byte of the class subtracts
the range's lower bound. -/
theorem clsReportsClassAndPayload : Obligations.ClsReportsClassAndPayload := by
  refine ⟨rfl, fun s => ⟨_, exec_cls s, shortFrame_signal_writeResults ..,
    State.err_signal _ _, ?_⟩⟩
  rw [← byteOperand_toNat]
  refine ⟨?single, ?cont, ?lead2, ?lead3, ?lead4, ?invalid⟩
  case single =>
    intro hhi
    have hc := (classify_eq_single_iff (byteOperand s)).2 (by omega)
    exact clsResults_of_class hc (payload_of_single hc)
  case cont =>
    intro hlo hhi
    have hc := (classify_eq_cont_iff (byteOperand s)).2 (by omega)
    exact clsResults_of_class hc ((payload_of_cont hc).trans (by omega))
  case lead2 =>
    intro hlo hhi
    have hc := (classify_eq_lead2_iff (byteOperand s)).2 (by omega)
    exact clsResults_of_class hc ((payload_of_lead2 hc).trans (by omega))
  case lead3 =>
    intro hlo hhi
    have hc := (classify_eq_lead3_iff (byteOperand s)).2 (by omega)
    exact clsResults_of_class hc ((payload_of_lead3 hc).trans (by omega))
  case lead4 =>
    intro hlo hhi
    have hc := (classify_eq_lead4_iff (byteOperand s)).2 (by omega)
    exact clsResults_of_class hc ((payload_of_lead4 hc).trans (by omega))
  case invalid =>
    intro hlo
    have hc := (classify_eq_invalid_iff (byteOperand s)).2 hlo
    obtain ⟨hcode, hpayload⟩ := clsResults_of_class hc (payload_of_invalid hc)
    exact ⟨hcode, BitVec.eq_of_toNat_eq hpayload⟩

/-- Settles O13: CEXT tests for the class CONT, whose range is 0x80..0xBF, and there the low six bits
are the byte less 0x80. -/
theorem cextExtractsPayload : Obligations.CextExtractsPayload := by
  refine ⟨rfl, fun s => ?_⟩
  have hrange := classify_eq_cont_iff (byteOperand s)
  rw [← byteOperand_toNat]
  rcases exec_cext_cases s with ⟨hc, hx⟩ | ⟨hc, hx⟩ <;>
    refine ⟨_, hx, shortFrame_signal_writeResults .., rfl, fun hin => ?_, fun hout => ?_⟩
  · refine ⟨?_, State.err_signal _ _⟩
    rw [State.signal_res0, State.writeResults_res0, zext32_contPayload_toNat, contPayload_eq]
    omega
  · obtain ⟨hlo, hhi⟩ := hrange.1 hc
    omega
  · exact absurd (hrange.2 (by omega)) hc
  · exact ⟨rfl, State.err_signal _ _⟩

end Sys2Proof.Machine
end

section
/-! PROOF. The command ENC (`41_encoder.md` R68 to R73): a code point in range packs into RES0 the unit
of its range, and a value above `CP_MAX` signals OUT_OF_RANGE and nothing more. -/

namespace Sys2Proof.Machine

/-! ## Which values encode, and to how much -/

/-- Only the values above `CP_MAX` do not encode (`41_encoder.md` R70). -/
theorem encodeFn_eq_outOfRange_iff (c : Nat) : encodeFn c = .outOfRange ↔ Config.cpMax < c := by
  refine ⟨fun h => ?_, encodeFn_outOfRange⟩
  rcases encodeFn_cases c with ⟨-, he⟩ | ⟨-, -, he⟩ | ⟨-, -, he⟩ | ⟨-, -, he⟩ | ⟨hc, -⟩
  case inr.inr.inr.inr => exact hc
  all_goals rw [he] at h; cases h

theorem encodeFn_ok_length {c w : Nat} {bytes : List Byte} (h : encodeFn c = .ok bytes w) :
    bytes.length = w := by
  rcases encodeFn_cases c with ⟨-, he⟩ | ⟨-, -, he⟩ | ⟨-, -, he⟩ | ⟨-, -, he⟩ | ⟨-, he⟩ <;>
    rw [he] at h <;> cases h <;> rfl

/-- A unit fits RES0 whole (`41_encoder.md` R71). -/
theorem zext32_pack_toNat {l : List Byte} (hl : l.length ≤ 4) :
    (zext32 (pack l)).toNat = pack l := by
  apply zext32_toNat
  calc pack l < 256 ^ l.length := pack_lt l
    _ ≤ 256 ^ 4 := Nat.pow_le_pow_right (by omega) hl
    _ = 2 ^ 32 := by norm_num

/-! ## The packed unit of each range (`41_encoder.md` R68, R69) -/

theorem pack_unit_one {c : Nat} (h : c ≤ 127) : pack [leadByte 0 c] = c := by
  rw [pack_cons, pack_nil, leadByte_one (by omega)]
  rfl

theorem pack_unit_two {c : Nat} (h : c ≤ 2047) :
    pack [leadByte 0xC0 (c >>> 6), contByte c 0] =
      (0xC0 + c / 64) + 256 * (0x80 + c % 64) := by
  simp only [pack_cons, pack_nil, leadByte_two (show c < 2048 by omega), contByte_toNat]
  omega

theorem pack_unit_three {c : Nat} (h : c ≤ 65535) :
    pack [leadByte 0xE0 (c >>> 12), contByte c 1, contByte c 0] =
      (0xE0 + c / 4096) + 256 * (0x80 + c / 64 % 64) + 65536 * (0x80 + c % 64) := by
  simp only [pack_cons, pack_nil, leadByte_three (show c < 65536 by omega), contByte_toNat]
  omega

theorem pack_unit_four {c : Nat} (h : c ≤ Config.cpMax) :
    pack [leadByte 0xF0 (c >>> 18), contByte c 2, contByte c 1, contByte c 0] =
      (0xF0 + c / 262144) + 256 * (0x80 + c / 4096 % 64) + 65536 * (0x80 + c / 64 % 64)
        + 16777216 * (0x80 + c % 64) := by
  simp only [pack_cons, pack_nil, leadByte_four h, contByte_toNat, Nat.reduceMul,
    Nat.reducePow]
  omega

/-! ## What ENC writes -/

/-- An ERR code signalled alone is a short command's outcome that writes back the results it found. -/
theorem shortFrame_signal (s : State) (e : Err) : ShortFrame s (s.signal e) :=
  shortFrame_signal_writeResults s s.res0 s.res1 e

theorem exec_enc_completes (s : State) : ∃ t, exec .enc s = .next t ∧ ShortFrame s t := by
  rcases exec_enc_cases s with ⟨_, _, -, hx⟩ | ⟨-, hx⟩
  · exact ⟨_, hx, shortFrame_signal_writeResults ..⟩
  · exact ⟨_, hx, shortFrame_signal ..⟩

section
variable {s t : State}

/-- The registers ENC writes for a code point that encodes (`41_encoder.md` R71, R72). -/
theorem encResults_of_ok {bytes : List Byte} {w : Nat} (hx : exec .enc s = .next t)
    (h : encodeFn s.arg0.toNat = .ok bytes w) :
    t.err = 0 ∧ t.res1 = zext32 w ∧ t.res0.toNat = pack bytes := by
  obtain ⟨-, hw⟩ := encodeFn_ok_bounds h
  have hlen := encodeFn_ok_length h
  rw [exec_enc_of_ok h] at hx
  cases hx
  exact ⟨State.err_signal _ _, rfl, zext32_pack_toNat (by omega)⟩

/-- Above `CP_MAX` ENC signals OUT_OF_RANGE and does nothing else (`41_encoder.md` R70, R73). -/
theorem exec_enc_next_of_outOfRange (hx : exec .enc s = .next t)
    (h : Config.cpMax < s.arg0.toNat) : t = s.signal .outOfRange := by
  rcases exec_enc_cases s with ⟨_, _, he, -⟩ | ⟨-, he⟩
  · rw [codePointOperand, encodeFn_outOfRange h] at he
    cases he
  · rw [he] at hx
    cases hx
    rfl

/-- ENC's ERR tells whether its operand is above `CP_MAX` (`41_encoder.md` R70). -/
theorem err_eq_one_iff_of_exec_enc (hx : exec .enc s = .next t) :
    t.err = 1 ↔ Config.cpMax < s.arg0.toNat := by
  rw [← encodeFn_eq_outOfRange_iff]
  cases he : encodeFn s.arg0.toNat with
  | ok bytes w => simp [encResults_of_ok hx he]
  | outOfRange =>
    rw [exec_enc_next_of_outOfRange hx ((encodeFn_eq_outOfRange_iff _).1 he), State.err_signal]
    simp [Err.code]

end

/-! ## The obligations -/

/-- Settles O14: the range of ARG0 decides the unit `encodeFn` makes, and that unit, packed, is the
number the range's clause names. -/
theorem encPacksTheUnit : Obligations.EncPacksTheUnit := by
  refine ⟨rfl, fun s => ?_⟩
  obtain ⟨t, hx, hframe⟩ := exec_enc_completes s
  refine ⟨t, hx, hframe, ?one, ?two, ?three, ?four, ?outOfRange⟩
  case one =>
    intro hhi
    obtain ⟨herr, hwidth, hunit⟩ := encResults_of_ok hx (encodeFn_one hhi)
    exact ⟨herr, hwidth, BitVec.eq_of_toNat_eq (hunit.trans (pack_unit_one hhi))⟩
  case two =>
    intro hlo hhi
    obtain ⟨herr, hwidth, hunit⟩ := encResults_of_ok hx (encodeFn_two hlo hhi)
    exact ⟨herr, hwidth, hunit.trans (pack_unit_two hhi)⟩
  case three =>
    intro hlo hhi
    obtain ⟨herr, hwidth, hunit⟩ := encResults_of_ok hx (encodeFn_three hlo hhi)
    exact ⟨herr, hwidth, hunit.trans (pack_unit_three hhi)⟩
  case four =>
    intro hlo hhi
    obtain ⟨herr, hwidth, hunit⟩ := encResults_of_ok hx (encodeFn_four hlo hhi)
    exact ⟨herr, hwidth, hunit.trans (pack_unit_four hhi)⟩
  case outOfRange =>
    intro hlo
    rw [exec_enc_next_of_outOfRange hx hlo]
    exact ⟨State.err_signal _ _, rfl, rfl⟩

/-- Settles O15: an operand that encodes gives ERR = NONE, and on any other ENC is `State.signal`
alone, which keeps BUSY. -/
theorem encOutOfRangeWritesOnlyErr : Obligations.EncOutOfRangeWritesOnlyErr := by
  intro s t hx
  refine ⟨err_eq_one_iff_of_exec_enc hx, fun hout => ?_⟩
  rw [exec_enc_next_of_outOfRange hx hout]
  exact ⟨rfl, State.busy_signal _ _⟩

end Sys2Proof.Machine
end

section
/-! PROOF. The decoder (`42_decoder.md` R80, R81, R84): in the range of each class of byte 0 the table
of accepted units says what `decodeFn` tests, the unit of a code point passes those tests, and none of
them reads past the bytes the lead claims. -/

namespace Sys2Proof.Machine

/-! ## The table of accepted units, by the range of byte 0 (`42_decoder.md` R80) -/

/-- The code point and width a decode result carries, in the form of `unitTable`. -/
def DecodeResult.unit : DecodeResult → Option (Nat × Nat)
  | .ok cp w => some (cp, w)
  | .invalid => none

@[simp] theorem DecodeResult.unit_ok (cp w : Nat) : (DecodeResult.ok cp w).unit = some (cp, w) := rfl

@[simp] theorem DecodeResult.unit_invalid : DecodeResult.invalid.unit = none := rfl

section
variable {b0 : Nat} (b1 b2 b3 : Nat)

theorem unitTable_of_single (h : b0 < 0x80) : unitTable b0 b1 b2 b3 = some (b0, 1) :=
  if_pos (by omega)

theorem unitTable_of_not_lead (h : 0x80 ≤ b0 ∧ b0 < 0xC0 ∨ 0xF8 ≤ b0) :
    unitTable b0 b1 b2 b3 = none := by
  simp only [unitTable]
  repeat rw [if_neg (by omega)]

/-- The row of width 2: the leads 0xC0 and 0xC1 it leaves out are the overlong ones (R78). -/
theorem unitTable_of_lead2 (hlo : 0xC0 ≤ b0) (hhi : b0 < 0xE0) :
    unitTable b0 b1 b2 b3 =
      if (0x80 ≤ b1 ∧ b1 < 0xC0) ∧ 128 ≤ b0 % 32 * 64 + b1 % 64 then
        some (b0 % 32 * 64 + b1 % 64, 2)
      else none := by
  simp only [unitTable, Bool.and_eq_true, decide_eq_true_eq]
  rw [if_neg (by omega)]
  symm
  split
  case isTrue hrow =>
    have hv : (b0 - 0xC0) * 64 + (b1 - 0x80) = b0 % 32 * 64 + b1 % 64 := by omega
    rw [if_pos (by omega), hv]
  case isFalse hrow =>
    repeat rw [if_neg (by omega)]

/-- The rows of width 3: after 0xE0, a byte 1 below 0xA0 makes the unit overlong (R78). -/
theorem unitTable_of_lead3 (hlo : 0xE0 ≤ b0) (hhi : b0 < 0xF0) :
    unitTable b0 b1 b2 b3 =
      if (0x80 ≤ b1 ∧ b1 < 0xC0) ∧ (0x80 ≤ b2 ∧ b2 < 0xC0) ∧
          2048 ≤ (b0 % 16 * 64 + b1 % 64) * 64 + b2 % 64 then
        some ((b0 % 16 * 64 + b1 % 64) * 64 + b2 % 64, 3)
      else none := by
  simp only [unitTable, Bool.and_eq_true, decide_eq_true_eq]
  rw [if_neg (by omega), if_neg (by omega)]
  symm
  split
  case isTrue hrow =>
    have hv : (b0 - 0xE0) * 4096 + (b1 - 0x80) * 64 + (b2 - 0x80) =
        (b0 % 16 * 64 + b1 % 64) * 64 + b2 % 64 := by omega
    rw [hv]
    by_cases hE0 : b0 = 0xE0
    · rw [if_pos (by omega)]
    · rw [if_neg (by omega), if_pos (by omega)]
  case isFalse hrow =>
    repeat rw [if_neg (by omega)]

/-- The rows of width 4: after 0xF0, a byte 1 below 0x90 makes the unit overlong (R78); a lead above
0xF4, or a byte 1 above 0x8F after 0xF4, takes it past `CP_MAX` (R79). -/
theorem unitTable_of_lead4 (hlo : 0xF0 ≤ b0) (hhi : b0 < 0xF8) :
    unitTable b0 b1 b2 b3 =
      if (0x80 ≤ b1 ∧ b1 < 0xC0) ∧ (0x80 ≤ b2 ∧ b2 < 0xC0) ∧ (0x80 ≤ b3 ∧ b3 < 0xC0) ∧
          65536 ≤ ((b0 % 8 * 64 + b1 % 64) * 64 + b2 % 64) * 64 + b3 % 64 ∧
          ((b0 % 8 * 64 + b1 % 64) * 64 + b2 % 64) * 64 + b3 % 64 ≤ Config.cpMax then
        some (((b0 % 8 * 64 + b1 % 64) * 64 + b2 % 64) * 64 + b3 % 64, 4)
      else none := by
  simp only [unitTable, Bool.and_eq_true, decide_eq_true_eq]
  have hmax : Config.cpMax = 1114111 := rfl
  rw [if_neg (by omega), if_neg (by omega), if_neg (by omega), if_neg (by omega)]
  symm
  split
  case isTrue hrow =>
    have hv : (b0 - 0xF0) * 262144 + (b1 - 0x80) * 4096 + (b2 - 0x80) * 64 + (b3 - 0x80) =
        ((b0 % 8 * 64 + b1 % 64) * 64 + b2 % 64) * 64 + b3 % 64 := by omega
    rw [hv]
    by_cases hF0 : b0 = 0xF0
    · rw [if_pos (by omega)]
    by_cases hF4 : b0 = 0xF4
    · rw [if_neg (by omega), if_neg (by omega), if_pos (by omega)]
    · rw [if_neg (by omega), if_pos (by omega)]
  case isFalse hrow =>
    repeat rw [if_neg (by omega)]

end

/-- `decodeFn` accepts exactly the units of the table (`42_decoder.md` R80). -/
theorem unit_decodeFn (win : Window) :
    (decodeFn win).unit =
      unitTable win.b0.toNat win.b1.toNat win.b2.toNat win.b3.toNat := by
  cases hc : classify win.b0 with
  | single =>
    rw [decodeFn_single hc, unitTable_of_single _ _ _ ((classify_eq_single_iff _).1 hc),
      DecodeResult.unit_ok]
  | cont =>
    rw [decodeFn_cont hc, unitTable_of_not_lead _ _ _ (.inl ((classify_eq_cont_iff _).1 hc)),
      DecodeResult.unit_invalid]
  | invalid =>
    rw [decodeFn_invalid hc, unitTable_of_not_lead _ _ _ (.inr ((classify_eq_invalid_iff _).1 hc)),
      DecodeResult.unit_invalid]
  | lead2 =>
    obtain ⟨hlo, hhi⟩ := (classify_eq_lead2_iff _).1 hc
    simp only [decodeFn_lead2 hc, unitTable_of_lead2 _ _ _ hlo hhi, classify_eq_cont_iff,
      apply_ite DecodeResult.unit, DecodeResult.unit_ok, DecodeResult.unit_invalid]
  | lead3 =>
    obtain ⟨hlo, hhi⟩ := (classify_eq_lead3_iff _).1 hc
    simp only [decodeFn_lead3 hc, unitTable_of_lead3 _ _ _ hlo hhi, classify_eq_cont_iff,
      apply_ite DecodeResult.unit, DecodeResult.unit_ok, DecodeResult.unit_invalid]
  | lead4 =>
    obtain ⟨hlo, hhi⟩ := (classify_eq_lead4_iff _).1 hc
    simp only [decodeFn_lead4 hc, unitTable_of_lead4 _ _ _ hlo hhi, classify_eq_cont_iff,
      apply_ite DecodeResult.unit, DecodeResult.unit_ok, DecodeResult.unit_invalid]

/-- DEC's window holds the bytes of ARG0, byte 0 lowest (`42_decoder.md` R82). -/
theorem unitTable_arg0 (s : State) :
    unitTable (byteNat s.arg0 0) (byteNat s.arg0 1) (byteNat s.arg0 2) (byteNat s.arg0 3) =
      (decodeFn (windowOperand s)).unit := by
  simp only [unit_decodeFn, windowOperand, byteOf_toNat_eq_byteNat]

/-! ## The unit of a code point decodes to it (`42_decoder.md` R81) -/

section
variable {c : Nat} {win : Window}

theorem decodeFn_unit_one (hhi : c ≤ 127) (hb0 : win.b0 = leadByte 0 c) :
    decodeFn win = .ok c 1 := by
  have hlead : win.b0.toNat = c := by rw [hb0, leadByte_one (by omega)]
  rw [decodeFn_single ((classify_eq_single_iff _).2 (by omega)), hlead]

theorem decodeFn_unit_two (hlo : 127 < c) (hhi : c ≤ 2047)
    (hb0 : win.b0 = leadByte 0xC0 (c >>> 6)) (hb1 : win.b1 = contByte c 0) :
    decodeFn win = .ok c 2 := by
  have hlead : win.b0.toNat = 0xC0 + c / 64 := by rw [hb0, leadByte_two (by omega)]
  have h1 : win.b1.toNat = 128 + c % 64 := by simp [hb1, contByte_toNat]
  have hv : win.b0.toNat % 32 * 64 + win.b1.toNat % 64 = c := by omega
  rw [decodeFn_lead2 ((classify_eq_lead2_iff _).2 (by omega)), hv,
    if_pos ⟨(classify_eq_cont_iff _).2 (by omega), hlo⟩]

theorem decodeFn_unit_three (hlo : 2047 < c) (hhi : c ≤ 65535)
    (hb0 : win.b0 = leadByte 0xE0 (c >>> 12)) (hb1 : win.b1 = contByte c 1)
    (hb2 : win.b2 = contByte c 0) : decodeFn win = .ok c 3 := by
  have hlead : win.b0.toNat = 0xE0 + c / 4096 := by rw [hb0, leadByte_three (by omega)]
  have h1 : win.b1.toNat = 128 + c / 64 % 64 := by simp [hb1, contByte_toNat]
  have h2 : win.b2.toNat = 128 + c % 64 := by simp [hb2, contByte_toNat]
  have hv : (win.b0.toNat % 16 * 64 + win.b1.toNat % 64) * 64 + win.b2.toNat % 64 = c := by omega
  rw [decodeFn_lead3 ((classify_eq_lead3_iff _).2 (by omega)), hv,
    if_pos ⟨(classify_eq_cont_iff _).2 (by omega), (classify_eq_cont_iff _).2 (by omega), hlo⟩]

theorem decodeFn_unit_four (hlo : 65535 < c) (hhi : c ≤ Config.cpMax)
    (hb0 : win.b0 = leadByte 0xF0 (c >>> 18)) (hb1 : win.b1 = contByte c 2)
    (hb2 : win.b2 = contByte c 1) (hb3 : win.b3 = contByte c 0) : decodeFn win = .ok c 4 := by
  have hmax : c ≤ 1114111 := hhi
  have hlead : win.b0.toNat = 0xF0 + c / 262144 := by rw [hb0, leadByte_four hhi]
  have h1 : win.b1.toNat = 128 + c / 4096 % 64 := by simp [hb1, contByte_toNat]
  have h2 : win.b2.toNat = 128 + c / 64 % 64 := by simp [hb2, contByte_toNat]
  have h3 : win.b3.toNat = 128 + c % 64 := by simp [hb3, contByte_toNat]
  have hv : ((win.b0.toNat % 8 * 64 + win.b1.toNat % 64) * 64 + win.b2.toNat % 64) * 64 +
      win.b3.toNat % 64 = c := by omega
  rw [decodeFn_lead4 ((classify_eq_lead4_iff _).2 (by omega)), hv,
    if_pos ⟨(classify_eq_cont_iff _).2 (by omega), (classify_eq_cont_iff _).2 (by omega),
      (classify_eq_cont_iff _).2 (by omega), hlo, hhi⟩]

/-- A window that starts with the unit of a code point decodes to it, whatever bytes follow. -/
theorem decodeFn_of_encodeFn {w : Nat} {bytes : List Byte} (h : encodeFn c = .ok bytes w)
    (hwin : win.toList.take w = bytes) : decodeFn win = .ok c w := by
  rcases encodeFn_cases c with
      ⟨hhi, he⟩ | ⟨hlo, hhi, he⟩ | ⟨hlo, hhi, he⟩ | ⟨hlo, hhi, he⟩ | ⟨-, he⟩ <;>
    rw [he] at h <;> cases h <;>
    simp only [Window.toList, List.take_succ_cons, List.take_zero, List.cons.injEq, and_true] at hwin
  · exact decodeFn_unit_one hhi hwin
  · obtain ⟨hb0, hb1⟩ := hwin
    exact decodeFn_unit_two hlo hhi hb0 hb1
  · obtain ⟨hb0, hb1, hb2⟩ := hwin
    exact decodeFn_unit_three hlo hhi hb0 hb1 hb2
  · obtain ⟨hb0, hb1, hb2, hb3⟩ := hwin
    exact decodeFn_unit_four hlo hhi hb0 hb1 hb2 hb3

end

/-- Every code point encodes, to a unit of its width (`41_encoder.md` R68, R70). -/
theorem encodeFn_ok_of_le {c : Nat} (h : c ≤ Config.cpMax) :
    ∃ bytes w, encodeFn c = .ok bytes w ∧ widthOf c = some w := by
  have hmax : ¬ c > Config.cpMax := by omega
  rcases encodeFn_cases c with
    ⟨hhi, he⟩ | ⟨hlo, hhi, he⟩ | ⟨hlo, hhi, he⟩ | ⟨hlo, -, he⟩ | ⟨hout, -⟩
  case inr.inr.inr.inr => exact absurd hout hmax
  all_goals
    refine ⟨_, _, he, ?_⟩
    rw [widthOf, if_neg hmax]
  · rw [if_pos hhi]
  · rw [if_neg (by omega), if_pos hhi]
  · rw [if_neg (by omega), if_neg (by omega), if_pos hhi]
  · rw [if_neg (by omega), if_neg (by omega), if_neg (by omega)]

/-! ## Bytes past the width (`42_decoder.md` R84) -/

/-- Steps 3 to 7 read the first w bytes of the window alone. -/
theorem decodeMulti_congr {win win' : Window} {n : Nat}
    (h : win.toList.take (n + 1) = win'.toList.take (n + 1)) :
    decodeMulti win (n + 1) = decodeMulti win' (n + 1) := by
  simp only [Window.toList, List.take_succ_cons, List.cons.injEq] at h
  obtain ⟨hlead, hconts⟩ := h
  simp only [decodeMulti, Nat.add_sub_cancel, hlead, hconts]

/-- Two windows that agree on a first byte and more agree on byte 0. -/
theorem b0_eq_of_take_eq {win win' : Window} {w : Nat} (hw : 0 < w)
    (h : win.toList.take w = win'.toList.take w) : win.b0 = win'.b0 := by
  obtain ⟨n, rfl⟩ := Nat.exists_eq_add_of_lt hw
  exact List.head_eq_of_cons_eq h

/-- A lead claims at least its own byte (`40_classifier.md` R63). -/
theorem claimedWidth_getD_pos (k : ByteClass) : 0 < (claimedWidth k).getD 1 := by
  cases k <;> decide

/-! ## The obligations -/

/-- Settles O16: DEC writes what `decodeFn` gives for its window, and the table of accepted units is
`decodeFn`'s. -/
theorem decAcceptsExactlyTheTable : Obligations.DecAcceptsExactlyTheTable := by
  refine ⟨rfl, fun s => ?_⟩
  rw [unitTable_arg0]
  rcases exec_dec_cases s with ⟨cp, w, hd, hx⟩ | ⟨hd, hx⟩ <;> rw [hd]
  · obtain ⟨hcp, hw⟩ := encodeFn_ok_bounds (encodeFn_of_decodeFn hd)
    have hmax : Config.cpMax = 1114111 := rfl
    exact ⟨_, hx, shortFrame_signal_writeResults .., zext32_toNat (by omega),
      zext32_toNat (by omega), State.err_signal _ _⟩
  · exact ⟨_, hx, shortFrame_signal_writeResults .., rfl, rfl, State.err_signal _ _⟩

/-- Settles O17: the decoder undoes the encoder on each width, and the encoder the decoder. -/
theorem codecRoundTrip : Obligations.CodecRoundTrip := by
  refine ⟨fun c hc => ?_, fun _ _ _ => encodeFn_of_decodeFn⟩
  obtain ⟨bytes, w, he, hw⟩ := encodeFn_ok_of_le hc
  exact ⟨bytes, w, he, hw, encodeFn_ok_length he, fun _ => decodeFn_of_encodeFn he⟩

/-- Settles O20: byte 0, which both windows share, picks the case of `decodeFn`, and a lead of w bytes
leaves the rest to `decodeMulti`, which reads w bytes. -/
theorem bytesPastTheWidthDoNotMatter : Obligations.BytesPastTheWidthDoNotMatter := by
  rintro win win' _ rfl h
  have hlead : win.b0 = win'.b0 := b0_eq_of_take_eq (claimedWidth_getD_pos _) h
  unfold decodeFn
  rw [← hlead]
  cases hc : classify win.b0 with
  | single => rfl
  | cont => rfl
  | invalid => rfl
  | lead2 => rw [hc] at h; exact decodeMulti_congr h
  | lead3 => rw [hc] at h; exact decodeMulti_congr h
  | lead4 => rw [hc] at h; exact decodeMulti_congr h

end Sys2Proof.Machine
end

section
/-! PROOF. The scan loop (`43_scanners.md` R85 to R88, R93, R95): how far a turn goes by the range of
the byte at the cursor, and the loop as the list of valid units, whose code points it emits in order
into memory that keeps the input region. -/

namespace Sys2Proof.Machine

/-! ## The width a byte claims, by its range (`40_classifier.md` R61, R63) -/

theorem claimedWidth_classify_eq_none {b : Byte}
    (h : (0x80 ≤ b.toNat ∧ b.toNat ≤ 0xBF) ∨ 0xF8 ≤ b.toNat) : claimedWidth (classify b) = none := by
  rcases h with ⟨hlo, hhi⟩ | hlo
  · rw [(classify_eq_cont_iff b).2 (by omega)]
    rfl
  · rw [(classify_eq_invalid_iff b).2 hlo]
    rfl

theorem claimedWidth_classify_eq_some {b : Byte} {w : Nat}
    (h : (b.toNat ≤ 0x7F ∧ w = 1) ∨ (0xC0 ≤ b.toNat ∧ b.toNat ≤ 0xDF ∧ w = 2) ∨
      (0xE0 ≤ b.toNat ∧ b.toNat ≤ 0xEF ∧ w = 3) ∨ (0xF0 ≤ b.toNat ∧ b.toNat ≤ 0xF7 ∧ w = 4)) :
    claimedWidth (classify b) = some w := by
  rcases h with ⟨hhi, rfl⟩ | ⟨hlo, hhi, rfl⟩ | ⟨hlo, hhi, rfl⟩ | ⟨hlo, hhi, rfl⟩
  · rw [(classify_eq_single_iff b).2 (by omega)]
    rfl
  · rw [(classify_eq_lead2_iff b).2 (by omega)]
    rfl
  · rw [(classify_eq_lead3_iff b).2 (by omega)]
    rfl
  · rw [(classify_eq_lead4_iff b).2 (by omega)]
    rfl

/-- A unit decoded from a scan window has the width its lead claims. -/
theorem decodeFn_scanWindow_width {m : Memory} {a w cp v : Nat}
    (hw : claimedWidth (classify (m.read a)) = some w)
    (hd : decodeFn (scanWindow m a w) = .ok cp v) : v = w :=
  Option.some.inj ((decodeFn_width hd).symm.trans hw)

/-! ## The four kinds of turn (`43_scanners.md` R85 to R88) -/

section
variable (emit : Nat → Nat → Memory → Memory) {base n w : Nat} {l : ScanLoop}

theorem scanTurn_of_not_lead
    (hw : claimedWidth (classify (l.mem.read (base + l.p))) = none) :
    scanTurn emit base n l = { l with p := l.p + 1 } := by
  simp only [scanTurn, hw]

theorem scanTurn_of_truncated (hw : claimedWidth (classify (l.mem.read (base + l.p))) = some w)
    (hn : n < l.p + w) : scanTurn emit base n l = { l with p := n } := by
  simp only [scanTurn, hw, gt_iff_lt, if_pos hn]

theorem scanTurn_of_invalid (hw : claimedWidth (classify (l.mem.read (base + l.p))) = some w)
    (hn : l.p + w ≤ n) (hd : decodeFn (scanWindow l.mem (base + l.p) w) = .invalid) :
    scanTurn emit base n l = { l with p := l.p + w } := by
  simp only [scanTurn, hw, gt_iff_lt, if_neg (Nat.not_lt.2 hn), hd]

theorem scanTurn_of_valid {cp v : Nat}
    (hw : claimedWidth (classify (l.mem.read (base + l.p))) = some w) (hn : l.p + w ≤ n)
    (hd : decodeFn (scanWindow l.mem (base + l.p) w) = .ok cp v) :
    scanTurn emit base n l =
      { p := l.p + w, count := l.count + 1, mem := emit l.count cp l.mem } := by
  simp only [scanTurn, hw, gt_iff_lt, if_neg (Nat.not_lt.2 hn), hd]

end

/-- A turn moves the cursor on, and not past n (`43_scanners.md` R93). -/
theorem scanTurn_p_bounds (emit : Nat → Nat → Memory → Memory) {base n : Nat} {l : ScanLoop}
    (hp : l.p < n) : l.p < (scanTurn emit base n l).p ∧ (scanTurn emit base n l).p ≤ n := by
  rcases scanTurn_cases emit base n l with
    ⟨-, ht⟩ | ⟨w, hw, ⟨-, ht⟩ | ⟨hn, cp, -, ht⟩ | ⟨hn, -, ht⟩⟩ <;> rw [ht]
  · exact ⟨Nat.lt_succ_self _, hp⟩
  · exact ⟨hp, Nat.le_refl n⟩
  all_goals
    obtain ⟨hpos, -⟩ := claimedWidth_pos hw
    exact ⟨Nat.lt_add_of_pos_right hpos, hn⟩

theorem scanTurn_count_le (emit : Nat → Nat → Memory → Memory) (base n : Nat) (l : ScanLoop) :
    (scanTurn emit base n l).count ≤ l.count + 1 := by
  rcases scanTurn_cases emit base n l with
    ⟨-, ht⟩ | ⟨w, -, ⟨-, ht⟩ | ⟨-, cp, -, ht⟩ | ⟨-, -, ht⟩⟩ <;> rw [ht]
  all_goals exact Nat.le_succ _

/-- A scan that has counted no more units than it has passed bytes ends so, with its cursor not past
n (`43_scanners.md` R95). -/
theorem scanFn_count_le (emit : Nat → Nat → Memory → Memory) (base : Nat) {n : Nat} {l : ScanLoop}
    (hcount : l.count ≤ l.p) (hp : l.p ≤ n) : (scanFn emit base n l).count ≤ n := by
  obtain ⟨hcountEnd, hpEnd⟩ : (scanFn emit base n l).count ≤ (scanFn emit base n l).p ∧
      (scanFn emit base n l).p ≤ n := by
    refine scanFn_induction (fun l => l.count ≤ l.p ∧ l.p ≤ n) (fun l hl hlt => ?_) ⟨hcount, hp⟩
    obtain ⟨hc, -⟩ := hl
    have hstep := scanTurn_count_le emit base n l
    obtain ⟨hgt, hle⟩ := scanTurn_p_bounds emit (base := base) hlt
    exact ⟨by omega, hle⟩
  exact hcountEnd.trans hpEnd

/-! ## The valid units of a region, by the lead at the cursor -/

/-- The w bytes of memory from a. -/
def bytesAt (m : Memory) (a w : Nat) : List Byte := (List.range w).map fun k => m.read (a + k)

section
variable {m : Memory} {base n p w : Nat} (fuel : Nat)

theorem validUnits_of_le (h : n ≤ p) : validUnits m base n fuel p = [] := by
  cases fuel with
  | zero => rfl
  | succ fuel => rw [validUnits, if_neg (Nat.not_lt.2 h)]

theorem validUnits_of_not_lead (hp : p < n)
    (hw : claimedWidth (classify (m.read (base + p))) = none) :
    validUnits m base n (fuel + 1) p = validUnits m base n fuel (p + 1) := by
  simp only [validUnits, if_pos hp, hw]

theorem validUnits_of_truncated (hw : claimedWidth (classify (m.read (base + p))) = some w)
    (hn : n < p + w) : validUnits m base n (fuel + 1) p = [] := by
  simp only [validUnits, hw, gt_iff_lt, if_pos hn, ite_self]

theorem validUnits_of_invalid (hp : p < n)
    (hw : claimedWidth (classify (m.read (base + p))) = some w) (hn : p + w ≤ n)
    (hd : decodeFn (scanWindow m (base + p) w) = .invalid) :
    validUnits m base n (fuel + 1) p = validUnits m base n fuel (p + w) := by
  simp only [validUnits, if_pos hp, hw, gt_iff_lt, if_neg (Nat.not_lt.2 hn), hd]

theorem validUnits_of_valid {cp v : Nat} (hp : p < n)
    (hw : claimedWidth (classify (m.read (base + p))) = some w) (hn : p + w ≤ n)
    (hd : decodeFn (scanWindow m (base + p) w) = .ok cp v) :
    validUnits m base n (fuel + 1) p =
      (cp, bytesAt m (base + p) w) :: validUnits m base n fuel (p + w) := by
  simp only [validUnits, if_pos hp, hw, gt_iff_lt, if_neg (Nat.not_lt.2 hn), hd, bytesAt]

end

/-- One turn beside the list of valid units: either it counts nothing, leaves memory and drops no
unit, or it counts and emits the code point of the first unit and leaves the others. -/
theorem scanTurn_validUnits (emit : Nat → Nat → Memory → Memory) {base n : Nat} {l : ScanLoop}
    (fuel : Nat) (hp : l.p < n) :
    ((scanTurn emit base n l).count = l.count ∧ (scanTurn emit base n l).mem = l.mem ∧
      validUnits l.mem base n (fuel + 1) l.p =
        validUnits l.mem base n fuel (scanTurn emit base n l).p) ∨
    ∃ cp w, decodeFn (scanWindow l.mem (base + l.p) w) = .ok cp w ∧ 1 ≤ w ∧ w ≤ 4 ∧
      (scanTurn emit base n l).count = l.count + 1 ∧
      (scanTurn emit base n l).mem = emit l.count cp l.mem ∧
      validUnits l.mem base n (fuel + 1) l.p = (cp, bytesAt l.mem (base + l.p) w) ::
        validUnits l.mem base n fuel (scanTurn emit base n l).p := by
  rcases scanTurn_cases emit base n l with
    ⟨hw, ht⟩ | ⟨w, hw, ⟨hn, ht⟩ | ⟨hn, cp, hd, ht⟩ | ⟨hn, hd, ht⟩⟩ <;> rw [ht]
  · exact .inl ⟨rfl, rfl, validUnits_of_not_lead fuel hp hw⟩
  · exact .inl ⟨rfl, rfl,
      (validUnits_of_truncated fuel hw hn).trans (validUnits_of_le fuel (Nat.le_refl n)).symm⟩
  · obtain ⟨hpos, hle⟩ := claimedWidth_pos hw
    exact .inr ⟨cp, w, hd, hpos, hle, rfl, rfl, validUnits_of_valid fuel hp hw hn hd⟩
  · exact .inl ⟨rfl, rfl, validUnits_of_invalid fuel hp hw hn hd⟩

/-- The list of valid units depends on the bytes of the region alone (`20_memory.md` R42). -/
theorem validUnits_congr {m m' : Memory} {base n : Nat}
    (h : ∀ a, base ≤ a → a < base + n → m.read a = m'.read a) (fuel p : Nat) :
    validUnits m base n fuel p = validUnits m' base n fuel p := by
  induction fuel generalizing p with
  | zero => rfl
  | succ fuel ih =>
    by_cases hp : p < n
    case neg => rw [validUnits_of_le _ (by omega), validUnits_of_le _ (by omega)]
    have hread : m.read (base + p) = m'.read (base + p) := h _ (by omega) (by omega)
    cases hw : claimedWidth (classify (m.read (base + p))) with
    | none =>
      rw [validUnits_of_not_lead fuel hp hw, validUnits_of_not_lead fuel hp (hread ▸ hw), ih]
    | some w =>
      have hw' : claimedWidth (classify (m'.read (base + p))) = some w := hread ▸ hw
      rcases Nat.lt_or_ge n (p + w) with hn | hn
      · rw [validUnits_of_truncated fuel hw hn, validUnits_of_truncated fuel hw' hn]
      have hunit : ∀ k, k < w → m.read (base + p + k) = m'.read (base + p + k) :=
        fun k hk => h _ (by omega) (by omega)
      have hwin := scanWindow_congr (claimedWidth_pos hw).1 hunit
      cases hd : decodeFn (scanWindow m (base + p) w) with
      | invalid =>
        rw [validUnits_of_invalid fuel hp hw hn hd,
          validUnits_of_invalid fuel hp hw' hn (hwin ▸ hd), ih]
      | ok cp v =>
        have hbytes : bytesAt m (base + p) w = bytesAt m' (base + p) w :=
          List.map_congr_left fun k hk => hunit k (List.mem_range.1 hk)
        rw [validUnits_of_valid fuel hp hw hn hd,
          validUnits_of_valid fuel hp hw' hn (hwin ▸ hd), ih, hbytes]

/-- The bytes of a unit are the first of its window. -/
theorem scanWindow_toList_take (m : Memory) (a : Nat) {w : Nat} (hpos : 1 ≤ w) (hle : w ≤ 4) :
    (scanWindow m a w).toList.take w = bytesAt m a w := by
  match w, hpos, hle with
  | 1, _, _ => rfl
  | 2, _, _ => rfl
  | 3, _, _ => rfl
  | 4, _, _ => rfl

/-- Each valid unit is what its code point encodes to (`42_decoder.md` R81). -/
theorem encodeFn_of_mem_validUnits {m : Memory} {base n fuel p : Nat} {u : Nat × List Byte}
    (hu : u ∈ validUnits m base n fuel p) : ∃ w, encodeFn u.1 = .ok u.2 w := by
  induction fuel generalizing p with
  | zero => cases hu
  | succ fuel ih =>
    by_cases hp : p < n
    case neg => rw [validUnits_of_le _ (by omega)] at hu; cases hu
    rcases scanTurn_validUnits (base := base) (l := ⟨p, 0, m⟩) emitNothing fuel hp with
      ⟨-, -, heq⟩ | ⟨cp, w, hd, hpos, hle, -, -, heq⟩ <;> rw [heq] at hu
    · exact ih hu
    · rcases List.mem_cons.1 hu with rfl | hu
      · exact ⟨w, by rw [encodeFn_of_decodeFn hd, scanWindow_toList_take _ _ hpos hle]⟩
      · exact ih hu

/-! ## The loop as its list of units -/

/-- Code points emitted in order from slot k on. -/
def emitAll (emit : Nat → Nat → Memory → Memory) : Nat → List Nat → Memory → Memory
  | _, [], m => m
  | k, cp :: rest, m => emitAll emit (k + 1) rest (emit k cp m)

/-- Emitting to any of the first n slots leaves the input region (`20_memory.md` R43 item 3). -/
def KeepsInput (emit : Nat → Nat → Memory → Memory) (base n : Nat) : Prop :=
  ∀ k cp m a, k < n → base ≤ a → a < base + n → (emit k cp m).read a = m.read a

/-- The loop counts the valid units from the cursor on and emits their code points in order
(`43_scanners.md` R85): each count is a slot below n, so no emission disturbs the units to come. -/
theorem scanTurns_eq_emitAll {emit : Nat → Nat → Memory → Memory} {base n : Nat}
    (hkeep : KeepsInput emit base n) (fuel : Nat) {l : ScanLoop} (hcount : l.count ≤ l.p) :
    (scanTurns emit base n fuel l).count =
        l.count + (validUnits l.mem base n fuel l.p).length ∧
      (scanTurns emit base n fuel l).mem =
        emitAll emit l.count ((validUnits l.mem base n fuel l.p).map Prod.fst) l.mem := by
  induction fuel generalizing l with
  | zero => exact ⟨rfl, rfl⟩
  | succ fuel ih =>
    by_cases hp : l.p < n
    case neg =>
      rw [scanTurns_of_le _ (by omega), validUnits_of_le _ (by omega)]
      exact ⟨rfl, rfl⟩
    obtain ⟨hprogress, -⟩ := scanTurn_p_bounds emit (base := base) hp
    rw [scanTurns_succ_of_lt fuel hp]
    rcases scanTurn_validUnits (base := base) emit fuel hp with
      ⟨hc, hm, hu⟩ | ⟨cp, w, -, -, -, hc, hm, hu⟩ <;>
      obtain ⟨ihc, ihm⟩ := ih (l := scanTurn emit base n l) (by omega) <;>
      rw [ihc, ihm, hc, hm, hu]
    · exact ⟨rfl, rfl⟩
    · rw [validUnits_congr (fun a hlo hhi => hkeep l.count cp l.mem a (by omega) hlo hhi)]
      exact ⟨by rw [List.length_cons]; omega, rfl⟩

/-! ## The obligation -/

/-- Settles O22: the range of the byte at the cursor gives the width it claims, and with it the kind of
turn. -/
theorem scanSkipsByClaimedWidth : Obligations.ScanSkipsByClaimedWidth := by
  rintro emit base n l _ rfl -
  refine ⟨fun hb => scanTurn_of_not_lead emit (claimedWidth_classify_eq_none hb), fun w hb => ?_⟩
  have hw := claimedWidth_classify_eq_some hb
  exact ⟨scanTurn_of_truncated emit hw, scanTurn_of_invalid emit hw,
    fun cp v hn hd => ⟨decodeFn_scanWindow_width hw hd, scanTurn_of_valid emit hw hn hd⟩⟩

end Sys2Proof.Machine
end

section
/-! PROOF. The commands LEN and XFW (`43_scanners.md` R89 to R97): a launch that meets its conditions
latches the operands, and the completion counts the valid units of the input region and, for XFW, puts
their code points in the slots of the output region. -/

namespace Sys2Proof.Machine

/-! ## The slots of the output array (`43_scanners.md` R90, R91) -/

theorem emitNothing_keepsInput (base n : Nat) : KeepsInput emitNothing base n :=
  fun _ _ _ _ _ _ _ => rfl

/-- The first n slots lie in an output region of 4·n bytes. -/
theorem emitSlot_keepsInput {base n out : Nat}
    (hdisj : Span.disjoint ⟨base, n⟩ ⟨out, 4 * n⟩) : KeepsInput (emitSlot out) base n := by
  intro k cp m a hk hlo hhi
  have hout : ¬ (out ≤ a ∧ a < out + 4 * n) := fun ⟨hlo', hhi'⟩ => hdisj a hlo hhi hlo' hhi'
  exact Memory.read_writeWord_other m _ (by omega)

theorem emitAll_emitNothing (k : Nat) (cps : List Nat) (m : Memory) :
    emitAll emitNothing k cps m = m := by
  induction cps generalizing k with
  | nil => rfl
  | cons cp rest ih => exact ih (k + 1)

/-- Slots k, k+1, ... written leave every byte outside them. -/
theorem read_emitAll_emitSlot_other {out k a : Nat} (cps : List Nat) (m : Memory)
    (h : a < out + 4 * k ∨ out + 4 * (k + cps.length) ≤ a) :
    (emitAll (emitSlot out) k cps m).read a = m.read a := by
  induction cps generalizing k m with
  | nil => rfl
  | cons cp rest ih =>
    rw [List.length_cons] at h
    rw [emitAll, ih _ (by omega), emitSlot, Memory.read_writeWord_other _ _ (by omega)]

/-- Slot k + i holds the bytes of the i-th code point (`20_memory.md` R36). -/
theorem read_emitAll_emitSlot_at {m : Memory} (hm : m.wf = true) (out k : Nat) {cps : List Nat}
    {i cp : Nat} (hcp : cps[i]? = some cp) {j : Nat} (hj : j < 4) :
    (emitAll (emitSlot out) k cps m).read (out + 4 * (k + i) + j) = byteOf (zext32 cp) j := by
  induction cps generalizing m k i with
  | nil => simp at hcp
  | cons c rest ih =>
    rw [emitAll]
    cases i with
    | zero =>
      obtain rfl : c = cp := by simpa using hcp
      rw [Nat.add_zero, read_emitAll_emitSlot_other _ _ (by omega)]
      exact Memory.read_writeWord_at hm _ _ hj
    | succ i =>
      rw [show k + (i + 1) = k + 1 + i by omega]
      exact ih (Memory.writeWord_wf hm _ _) (k + 1) (by simpa using hcp)

/-- A word is read back from its four bytes (`20_memory.md` R38). -/
theorem Memory.readWord_of_bytes {m : Memory} {a : Nat} {v : Word}
    (h : ∀ j, j < 4 → m.read (a + j) = byteOf v j) : m.readWord a = v := by
  rw [Memory.readWord, h 1 (by omega), h 2 (by omega), h 3 (by omega),
    show m.read a = byteOf v 0 from h 0 (by omega)]
  exact pack_bytesOf v

/-! ## Launch conditions (`20_memory.md` R43) -/

theorem Span.ready_iff {p : Platform} {r : Span} :
    r.ready p ↔ r.inSpace = true ∧ p.admitsAll r = true ∧ p.sideEffectIn r = false := by
  rw [Span.inSpace_iff, Platform.admitsAll_iff, ← Bool.not_eq_true, Platform.sideEffectIn_iff]
  simp only [Span.ready, Span.holds_iff, Config.memSize]
  constructor
  · rintro ⟨hspace, hmap⟩
    refine ⟨hspace, fun a ha => (hmap a ha.1 ha.2).1, ?_⟩
    rintro ⟨a, ⟨hlo, hhi⟩, heff⟩
    rw [(hmap a hlo hhi).2] at heff
    cases heff
  · rintro ⟨hspace, hadm, heff⟩
    exact ⟨hspace, fun a hlo hhi =>
      ⟨hadm a ⟨hlo, hhi⟩, Bool.eq_false_iff.2 fun h => heff ⟨a, ⟨hlo, hhi⟩, h⟩⟩⟩

theorem Span.disjoint_iff {r q : Span} : r.disjoint q ↔ r.overlaps q = false := by
  rw [← Bool.not_eq_true, Span.overlaps_iff]
  simp only [Span.disjoint, Span.holds_iff]
  constructor
  · rintro h ⟨a, ⟨hlo, hhi⟩, hlo', hhi'⟩
    exact h a hlo hhi hlo' hhi'
  · exact fun h a hlo hhi hlo' hhi' => h ⟨a, ⟨hlo, hhi⟩, hlo', hhi'⟩

section
variable {s : State}

theorem launchProblem_len_iff :
    launchProblem s.plat (scanOperands .len s) = none ↔ lenMayLaunch s := by
  have hregions : (scanOperands .len s).regions = [inputOf s] := rfl
  have hkind : (scanOperands .len s).kind ≠ .xfw := by simp [scanOperands]
  simp [launchProblem_eq_none_iff, lenMayLaunch, Span.ready_iff, hregions, hkind]

theorem launchProblem_xfw_iff :
    launchProblem s.plat (scanOperands .xfw s) = none ↔ xfwMayLaunch s := by
  have hregions : (scanOperands .xfw s).regions = [inputOf s, outputOf s] := rfl
  have hkind : (scanOperands .xfw s).kind = .xfw := rfl
  have hin : (scanOperands .xfw s).input = inputOf s := rfl
  have hout : (scanOperands .xfw s).output = outputOf s := rfl
  simp only [launchProblem_eq_none_iff, xfwMayLaunch, Span.ready_iff, Span.disjoint_iff, hregions,
    hkind, hin, hout, List.forall_mem_cons, forall_const]
  tauto

theorem issueScan_next_iff {kind : ScanKind} {t : State} :
    issueScan kind s = .next t ↔
      launchProblem s.plat (scanOperands kind s) = none ∧ t = s.startScan (scanOperands kind s) := by
  refine ⟨issueScan_next, ?_⟩
  rintro ⟨hlaunch, rfl⟩
  exact issueScan_of_launch hlaunch

/-- A launch with a problem is refused. -/
theorem issueScan_refused_of_ne_none {kind : ScanKind}
    (h : launchProblem s.plat (scanOperands kind s) ≠ none) :
    ∃ r, issueScan kind s = .refused r := by
  obtain ⟨r, hr⟩ := Option.ne_none_iff_exists'.1 h
  exact ⟨r, issueScan_refused.2 hr⟩

theorem exec_len_next_iff {t : State} :
    exec .len s = .next t ↔ lenMayLaunch s ∧ t = s.startScan (scanOperands .len s) := by
  rw [exec_len, issueScan_next_iff, launchProblem_len_iff]

theorem exec_xfw_next_iff {t : State} :
    exec .xfw s = .next t ↔ xfwMayLaunch s ∧ t = s.startScan (scanOperands .xfw s) := by
  rw [exec_xfw, issueScan_next_iff, launchProblem_xfw_iff]

/-- LEN asks for less than XFW does (`43_scanners.md` R89, R90). -/
theorem lenMayLaunch_of_xfwMayLaunch (h : xfwMayLaunch s) : lenMayLaunch s := h.1

end

/-! ## The completion of a launched scan -/

/-- A scan command issued, its launch conditions met, and completed. -/
def scanResult (kind : ScanKind) (s : State) : State :=
  engineStep (s.startScan (scanOperands kind s))

section
variable (kind : ScanKind) (s : State)

theorem scanResult_eq_completeScan :
    scanResult kind s =
      completeScan (scanOperands kind s) (s.startScan (scanOperands kind s)) := rfl

theorem scanResult_frame : ScanFrame s (scanResult kind s) := by
  rw [scanResult_eq_completeScan]
  constructor <;> simp

/-- The count is at most n (`43_scanners.md` R95). -/
theorem run_scanOperands_count_le (m : Memory) :
    ((scanOperands kind s).run m).count ≤ s.arg1.toNat :=
  scanFn_count_le _ _ (Nat.le_refl 0) (Nat.zero_le _)

theorem scanResult_res0_toNat :
    (scanResult kind s).res0.toNat = ((scanOperands kind s).run s.mem).count := by
  rw [scanResult_eq_completeScan, completeScan_res0, State.startScan_mem]
  exact zext32_toNat (Nat.lt_of_le_of_lt (run_scanOperands_count_le kind s s.mem) s.arg1.isLt)

end

section
variable {s : State}

/-- From issue to completion the loop runs over the whole input region, from count 0. -/
theorem run_scanOperands {kind : ScanKind}
    (hkeep : KeepsInput (scanOperands kind s).emit s.arg0.toNat s.arg1.toNat) :
    ((scanOperands kind s).run s.mem).count = (codePointsOf s.mem (inputOf s)).length ∧
      ((scanOperands kind s).run s.mem).mem =
        emitAll (scanOperands kind s).emit 0 (codePointsOf s.mem (inputOf s)) s.mem := by
  obtain ⟨hcount, hmem⟩ :=
    scanTurns_eq_emitAll hkeep s.arg1.toNat (l := ⟨0, 0, s.mem⟩) (Nat.le_refl 0)
  rw [Nat.zero_add] at hcount
  exact ⟨by rw [codePointsOf, List.length_map]; exact hcount, hmem⟩

variable (s) in
theorem scanResult_len :
    (scanResult .len s).res0.toNat = (codePointsOf s.mem (inputOf s)).length ∧
      (scanResult .len s).mem = s.mem := by
  obtain ⟨hcount, hmem⟩ := run_scanOperands (kind := .len) (s := s) (emitNothing_keepsInput _ _)
  exact ⟨(scanResult_res0_toNat .len s).trans hcount, hmem.trans (emitAll_emitNothing _ _ _)⟩

theorem scanResult_xfw (h : xfwMayLaunch s) :
    (scanResult .xfw s).res0.toNat = (codePointsOf s.mem (inputOf s)).length ∧
      (scanResult .xfw s).mem =
        emitAll (emitSlot s.arg2.toNat) 0 (codePointsOf s.mem (inputOf s)) s.mem := by
  obtain ⟨-, -, hdisj⟩ := h
  obtain ⟨hcount, hmem⟩ := run_scanOperands (kind := .xfw) (s := s) (emitSlot_keepsInput hdisj)
  exact ⟨(scanResult_res0_toNat .xfw s).trans hcount, hmem⟩

/-- XFW leaves every byte outside the slots it counts (`43_scanners.md` R91). -/
theorem scanResult_xfw_read_other (h : xfwMayLaunch s) {a : Nat}
    (ha : a < s.arg2.toNat ∨ s.arg2.toNat + 4 * (scanResult .xfw s).res0.toNat ≤ a) :
    (scanResult .xfw s).mem.read a = s.mem.read a := by
  obtain ⟨hcount, hmem⟩ := scanResult_xfw h
  rw [hcount] at ha
  rw [hmem, read_emitAll_emitSlot_other _ _ (by omega)]

/-- XFW's slot k holds the k-th code point, little-endian (`43_scanners.md` R91). -/
theorem scanResult_xfw_read_slot (h : xfwMayLaunch s) (hm : s.mem.wf = true) {k cp j : Nat}
    (hcp : (codePointsOf s.mem (inputOf s))[k]? = some cp) (hj : j < 4) :
    (scanResult .xfw s).mem.read (s.arg2.toNat + 4 * k + j) = byteOf (zext32 cp) j := by
  obtain ⟨-, hmem⟩ := scanResult_xfw h
  have hslot := read_emitAll_emitSlot_at hm s.arg2.toNat 0 hcp hj
  rwa [Nat.zero_add, ← hmem] at hslot

end

/-! ## The code points of an input region -/

section
variable {m : Memory} {input : Span}

/-- Each of them is in range (`42_decoder.md` R79). -/
theorem zext32_toNat_of_mem_codePointsOf {cp : Nat} (h : cp ∈ codePointsOf m input) :
    (zext32 cp).toNat = cp := by
  obtain ⟨u, hu, rfl⟩ := List.mem_map.1 h
  obtain ⟨w, hw⟩ := encodeFn_of_mem_validUnits hu
  obtain ⟨hmax, -⟩ := encodeFn_ok_bounds hw
  exact zext32_toNat (Nat.lt_of_le_of_lt hmax (by decide))

/-- Encoded again and joined, they are the bytes of the valid units (`43_scanners.md` R97). -/
theorem map_unitBytes_codePointsOf :
    ((codePointsOf m input).map unitBytes).flatten = validBytesOf m input := by
  rw [codePointsOf, validBytesOf, List.map_map]
  refine congrArg List.flatten (List.map_congr_left fun u hu => ?_)
  obtain ⟨w, hw⟩ := encodeFn_of_mem_validUnits hu
  rw [Function.comp_apply, unitBytes, hw]

end

/-- The words a host reads in the slots below the count are the code points (`20_memory.md` R38). -/
theorem scanResult_xfw_words {s : State} (h : xfwMayLaunch s) (hm : s.mem.wf = true) :
    (List.range (scanResult .xfw s).res0.toNat).map (fun k =>
      ((scanResult .xfw s).mem.readWord (s.arg2.toNat + 4 * k)).toNat) =
    codePointsOf s.mem (inputOf s) := by
  obtain ⟨hcount, -⟩ := scanResult_xfw h
  apply List.ext_getElem
  · rw [List.length_map, List.length_range, hcount]
  · intro k _ hk
    have hword : (scanResult .xfw s).mem.readWord (s.arg2.toNat + 4 * k) =
        zext32 (codePointsOf s.mem (inputOf s))[k] :=
      Memory.readWord_of_bytes fun j hj =>
        scanResult_xfw_read_slot h hm (List.getElem?_eq_getElem hk) hj
    rw [List.getElem_map, List.getElem_range, hword,
      zext32_toNat_of_mem_codePointsOf (List.getElem_mem hk)]

/-! ## The obligations -/

/-- Settles O30: with a context held the engine's step is `completeScan`, which writes these fields
whatever the scan found. -/
theorem completionNeverReportsAnError : Obligations.CompletionNeverReportsAnError := by
  intro s c hs
  rcases engineStep_cases s with ⟨hnone, -⟩ | ⟨c', -, hstep⟩
  · rw [hs] at hnone
    cases hnone
  · rw [hstep]
    exact ⟨completeScan_err c' s, completeScan_busy c' s, rfl, rfl⟩

/-- Settles O26: each turn counts at most one unit and moves the cursor on, which stops at n. -/
theorem countIsAtMostLength : Obligations.CountIsAtMostLength := by
  intro s t i hi hx
  obtain ⟨kind, rfl⟩ : ∃ kind, t = s.startScan (scanOperands kind s) := by
    rcases hi with rfl | rfl
    · exact ⟨.len, (exec_len_next_iff.1 hx).2⟩
    · exact ⟨.xfw, (exec_xfw_next_iff.1 hx).2⟩
  have hle : (scanResult kind s).res0.toNat ≤ s.arg1.toNat := by
    rw [scanResult_res0_toNat]
    exact run_scanOperands_count_le kind s s.mem
  exact ⟨hle, Nat.mul_le_mul_left 4 hle⟩

/-- Settles O25: both counts are the number of valid units, since XFW never writes its input. -/
theorem lenAndXfwAgree : Obligations.LenAndXfwAgree := by
  intro s t hx
  obtain ⟨hlaunch, rfl⟩ := exec_xfw_next_iff.1 hx
  obtain ⟨hxfw, -⟩ := scanResult_xfw hlaunch
  obtain ⟨hlen, -⟩ := scanResult_len s
  exact ⟨_, exec_len_next_iff.2 ⟨lenMayLaunch_of_xfwMayLaunch hlaunch, rfl⟩,
    BitVec.eq_of_toNat_eq (hxfw.trans hlen.symm)⟩

/-- Settles O23: the loop with nothing emitted is the list of valid units, counted. -/
theorem lenCountsValidUnits : Obligations.LenCountsValidUnits := by
  refine ⟨rfl, fun s hlaunch => ?launched, fun s hlaunch => ?refused⟩
  case launched =>
    obtain ⟨hcount, hmem⟩ := scanResult_len s
    exact ⟨_, exec_len_next_iff.2 ⟨hlaunch, rfl⟩, rfl, State.busy_startScan .., State.err_startScan ..,
      withBusy_toNat_lt .., ⟨_, rfl, rfl, rfl, rfl⟩, scanResult_frame .len s, hcount, rfl,
      completeScan_status .., rfl, fun a => congrArg (Memory.read · a) hmem⟩
  case refused =>
    exact issueScan_refused_of_ne_none fun h => hlaunch (launchProblem_len_iff.1 h)

/-- Settles O24: the loop emits the code points of the valid units to slots 0, 1, ... in order, and the
slots lie side by side, so that each keeps what was written to it. -/
theorem xfwWritesCodePoints : Obligations.XfwWritesCodePoints := by
  refine ⟨rfl, fun s hlaunch hm => ?launched, fun s hlaunch => ?refused⟩
  case launched =>
    obtain ⟨hcount, -⟩ := scanResult_xfw hlaunch
    refine ⟨_, exec_xfw_next_iff.2 ⟨hlaunch, rfl⟩, rfl, State.busy_startScan ..,
      State.err_startScan .., withBusy_toNat_lt .., ⟨_, rfl, rfl, rfl, rfl, rfl⟩,
      scanResult_frame .xfw s, hcount, rfl, completeScan_status .., rfl,
      fun k cp hcp j hj => ?slot, fun a => scanResult_xfw_read_other hlaunch⟩
    have hslot := congrArg BitVec.toNat (scanResult_xfw_read_slot hlaunch hm hcp hj)
    rw [byteOf_toNat_eq_byteNat, byteNat,
      zext32_toNat_of_mem_codePointsOf (List.mem_of_getElem? hcp)] at hslot
    exact hslot
  case refused =>
    exact issueScan_refused_of_ne_none fun h => hlaunch (launchProblem_xfw_iff.1 h)

/-- Settles O27: the words in the slots are the code points of the valid units, and each unit is what
its code point encodes to. -/
theorem reencodedOutputIsValidInput : Obligations.ReencodedOutputIsValidInput := by
  intro s t hx hm
  obtain ⟨hlaunch, rfl⟩ := exec_xfw_next_iff.1 hx
  rw [← scanResult, ← map_unitBytes_codePointsOf, ← scanResult_xfw_words hlaunch hm, List.map_map,
    Function.comp_def]

end Sys2Proof.Machine
end

section
/-! PROOF. A word that names no command, written to CMD with BUSY = 0 (`30_encoding.md` R54,
`60_exceptions.md` R99): the decoder rejects it for RSVD or for OP, and its issue is `State.signal` after
`State.storeCmd`, whichever of the two it was. -/

namespace Sys2Proof.Machine

theorem decode_of_reserved_bits {w : Word} (h : 16 ≤ w.toNat) : decode w = .error .reservedBits :=
  if_pos fun hrsvd => absurd ((rsvdField_eq_zero_iff w).1 hrsvd) (Nat.not_lt.2 h)

/-- Every word but 1 to 6 is rejected: for its RSVD from 16 on, for its OP below (`30_encoding.md`
R54). -/
theorem decode_error_of_illegal {w : Word} (h : ¬ (1 ≤ w.toNat ∧ w.toNat ≤ 6)) :
    ∃ e, decode w = .error e := by
  rcases Nat.lt_or_ge w.toNat 16 with hrsvd | hrsvd
  · exact ⟨_, decode_of_reserved_opcode hrsvd (by omega)⟩
  · exact ⟨_, decode_of_reserved_bits hrsvd⟩

/-- A rejected word is stored in CMD and signalled, whatever it was rejected for (`60_exceptions.md`
R99). -/
theorem issue_of_decode_error {w : Word} {e : DecodeError} (h : decode w = .error e) (s : State) :
    issue w s = .next ((s.storeCmd w).signal .illegalCmd) := by
  rw [issue, h]
  rfl

/-- A write to CMD of an idle block is an issue (`10_state.md` R16). -/
theorem hostWriteReg_cmd_of_idle {s : State} (h : s.busy = false) (w : Word) :
    hostWriteReg .cmd w s = issue w s := if_pos ⟨rfl, h⟩

theorem step_hostWrite_cmd_of_idle {s : State} {rest : List Move} {w : Word}
    (hp : s.pending = .hostWrite s.plat.regBase 4 w :: rest) (hidle : s.busy = false) :
    step s = issue w (s.withPending rest) := by
  have hstep : step s = hostWriteReg .cmd w (s.withPending rest) :=
    step_hostWrite_of_aligned (off := 0) (by decide) rfl hp
  have hidle' : (s.withPending rest).busy = false := by simpa using hidle
  rw [hstep, hostWriteReg_cmd_of_idle hidle']

/-! ## The obligation -/

/-- Settles O5: the decoder rejects the word, so the step stores it in CMD and signals, and a signal
writes STATUS alone and keeps BUSY. -/
theorem illegalWordOnlySignals : Obligations.IllegalWordOnlySignals := by
  intro s rest w hp hidle hillegal
  obtain ⟨e, hdecode⟩ := decode_error_of_illegal hillegal
  refine ⟨((s.withPending rest).storeCmd w).signal .illegalCmd, ?step, rfl, State.err_signal _ _, ?busy,
    withErr_toNat_lt _ _⟩
  case step => rw [step_hostWrite_cmd_of_idle hp hidle, issue_of_decode_error hdecode]
  case busy => simpa using hidle

end Sys2Proof.Machine
end

section
/-! PROOF. Command words (`30_encoding.md` R52 to R54): the commands are the words 1 to 6, and a
host write of one of these to CMD of an idle block is a run of its command. -/

namespace Sys2Proof.Machine

/-! ## The words of the commands -/

theorem encode_toNat_bounds (i : Instr) : 1 ≤ (encode i).toNat ∧ (encode i).toNat ≤ 6 := by
  cases i <;> decide

theorem exists_eq_encode {w : Word} (hlo : 1 ≤ w.toNat) (hhi : w.toNat ≤ 6) :
    ∃ i, w = encode i := by
  obtain ⟨i, hi⟩ : ∃ i, w.toNat = (encode i).toNat := by
    match w.toNat, hlo, hhi with
    | 1, _, _ => exact ⟨.cls, rfl⟩
    | 2, _, _ => exact ⟨.cext, rfl⟩
    | 3, _, _ => exact ⟨.enc, rfl⟩
    | 4, _, _ => exact ⟨.dec, rfl⟩
    | 5, _, _ => exact ⟨.len, rfl⟩
    | 6, _, _ => exact ⟨.xfw, rfl⟩
  exact ⟨i, BitVec.eq_of_toNat_eq hi⟩

/-- A word decodes to a command exactly when it is the command's word (`30_encoding.md` R53, R54).
-/
theorem decode_eq_ok_iff {w : Word} {i : Instr} : decode w = .ok i ↔ w = encode i := by
  refine ⟨fun hdec => ?_, fun hw => hw ▸ decode_encode i⟩
  by_cases hlegal : 1 ≤ w.toNat ∧ w.toNat ≤ 6
  · obtain ⟨j, rfl⟩ := exists_eq_encode hlegal.1 hlegal.2
    rw [decode_encode] at hdec
    cases hdec
    rfl
  · obtain ⟨e, he⟩ := decode_error_of_illegal hlegal
    rw [he] at hdec
    cases hdec

/-! ## The issue of a command -/

theorem issue_of_decode_ok {w : Word} {i : Instr} (h : decode w = .ok i) (s : State) :
    issue w s = exec i (s.storeCmd w) := by
  rw [issue, h]

/-! ## The obligations -/

/-- Settles O2: a word outside 1 to 6 is rejected, and each word inside is `encode` of a command. -/
theorem decodeEncodeAgree : Obligations.DecodeEncodeAgree := by
  refine ⟨fun i _ => decode_encode i, fun w i => decode_eq_ok_iff.1, fun w => ⟨?legal, ?decodes⟩⟩
  case legal =>
    rintro ⟨i, hdec⟩
    rw [decode_eq_ok_iff.1 hdec]
    exact encode_toNat_bounds i
  case decodes =>
    rintro ⟨hlo, hhi⟩
    obtain ⟨i, hw⟩ := exists_eq_encode hlo hhi
    exact ⟨i, decode_eq_ok_iff.2 hw⟩

/-- Settles O3: the write is an issue, since the block is idle, and the word is legal. -/
theorem stepRunsTheIssuedCommand : Obligations.StepRunsTheIssuedCommand := by
  intro s rest w i hp hidle hdec
  rw [step_hostWrite_cmd_of_idle hp hidle, issue_of_decode_ok hdec]

/-- Settles O4: `State.withFetchWord` ends the scan, so its host write meets an idle block. -/
theorem fetchWordIsIssuedNext : Obligations.FetchWordIsIssuedNext := by
  intro s w i hdec
  have hw : BitVec.ofNat 32 (w.toNat % 2 ^ 32) = w := by
    rw [Nat.mod_eq_of_lt w.isLt, BitVec.ofNat_toNat, BitVec.setWidth_eq]
  have hp : (s.withFetchWord 32 w.toNat).pending = .hostWrite s.plat.regBase 4 w :: s.pending := by
    rw [State.withFetchWord, hw, State.withPending_pending]
  exact stepRunsTheIssuedCommand _ s.pending w i hp s.busy_endScan hdec

end Sys2Proof.Machine
end

section
/-! PROOF. What one step does to the whole state (`70_reset_and_hazards.md` R120), in eight effects,
and what follows from that list alone: the platform stands still, and so does the block while a scan
runs, and BUSY and ERR change at few steps (`10_state.md` R21, R24, R27, R28, R31). -/

namespace Sys2Proof.Machine

/-! ## The effects of a step -/

/-- The steps a list of moves can cost. -/
def movesWork (l : List Move) : Nat := (l.map Move.work).sum

@[simp] theorem movesWork_nil : movesWork [] = 0 := rfl

@[simp] theorem movesWork_cons (m : Move) (l : List Move) :
    movesWork (m :: l) = m.work + movesWork l := rfl

theorem Move.work_pos (m : Move) : 0 < m.work := by
  cases m <;> simp [Move.work]

theorem State.work_eq (s : State) : s.work = movesWork s.pending + s.scan.isSome.toNat := rfl

/-- What one step can do to a state, the moves it leaves being `l`: each constructor gives the next
state and what of the state before allowed it. -/
inductive StepEffect (s : State) : State → Prop where
  /-- The engine finds no scan: with no move left, or in a loop of WAIT that BUSY alone keeps up. -/
  | stay (hscan : s.scan = none) (hwhy : s.pending = [] ∨ s.busy = true) : StepEffect s s
  /-- A host read, a poll, a lost write, or the engine's move with no scan running. -/
  | observe (l : List Move) (v : List HostValue) (k : Nat)
      (hwork : movesWork l < movesWork s.pending) :
      StepEffect s { s with pending := l, reads := v, draws := k }
  /-- A host write to an ARG register. -/
  | operand (l : List Move) (a0 a1 a2 : Word) (hidle : s.busy = false)
      (hwork : movesWork l < movesWork s.pending) :
      StepEffect s { s with pending := l, arg0 := a0, arg1 := a1, arg2 := a2 }
  /-- A word issued that completes at once: a short command, or ILLEGAL_CMD. -/
  | short (l : List Move) (w r0 r1 : Word) (e : Err) (hidle : s.busy = false)
      (hp : s.pending = .hostWrite s.plat.regBase 4 w :: l) :
      StepEffect s ((((s.withPending l).storeCmd w).writeResults r0 r1).signal e)
  /-- LEN or XFW issued. -/
  | launch (l : List Move) (kind : ScanKind) (hidle : s.busy = false)
      (hp : s.pending = .hostWrite s.plat.regBase 4 (encode kind.instr) :: l)
      (hlaunch : launchProblem s.plat (scanOperands kind s) = none) :
      StepEffect s
        (((s.withPending l).storeCmd (encode kind.instr)).startScan (scanOperands kind s))
  /-- A host write of its memory. -/
  | store (l : List Move) (a : Nat) (bytes : List Byte)
      (hspace : a + bytes.length ≤ Config.memSize)
      (hfree : ∀ r ∈ s.guarded, r.overlaps ⟨a, bytes.length⟩ = false)
      (hwork : movesWork l < movesWork s.pending) :
      StepEffect s ((s.withPending l).setMem (s.mem.writeBytes a bytes))
  /-- The completion of the running scan. -/
  | complete (l : List Move) (c : ScanCtx) (hscan : s.scan = some c)
      (hwork : movesWork l ≤ movesWork s.pending) :
      StepEffect s ((completeScan c s).withPending l)
  /-- Reset. -/
  | reset (l : List Move) (hp : s.pending = .reset :: l) :
      StepEffect s (s.withPending l).resetBlock

/-! ## Each move has one of the effects -/

theorem regAt_eq_cmd {off : Nat} (h : regAt off = .cmd) : off = 0 := by
  unfold regAt at h
  split at h
  case h_1 => rfl
  all_goals cases h

section
variable {s t : State} {rest : List Move}

theorem movesWork_lt_of_cons {m : Move} (hp : s.pending = m :: rest) :
    movesWork rest < movesWork s.pending := by
  rw [hp, movesWork_cons]
  exact Nat.lt_add_of_pos_left m.work_pos

/-- A command writes results and signals, or is a scan that starts; ENC's signal alone writes back
the results it found. -/
theorem exec_next_cases {i : Instr} (h : exec i s = .next t) :
    (∃ r0 r1 e, t = (s.writeResults r0 r1).signal e) ∨
    ∃ kind : ScanKind, i = kind.instr ∧ launchProblem s.plat (scanOperands kind s) = none ∧
      t = s.startScan (scanOperands kind s) := by
  rcases exec_next h with ⟨r0, r1, e, ht, -, -⟩ | ⟨-, ht⟩ | ⟨kind, -, hlaunch, ht, hkind⟩
  · exact .inl ⟨r0, r1, e, ht⟩
  · exact .inl ⟨s.res0, s.res1, .outOfRange, ht⟩
  · refine .inr ⟨kind, ?_, hlaunch, ht⟩
    rcases hkind with ⟨rfl, rfl⟩ | ⟨rfl, rfl⟩ <;> rfl

theorem issue_effect {w : Word} (hp : s.pending = .hostWrite s.plat.regBase 4 w :: rest)
    (hidle : s.busy = false) (h : issue w (s.withPending rest) = .next t) : StepEffect s t := by
  rcases issue_next h with ⟨i, hdec, hx⟩ | ⟨e, -, rfl⟩
  · rcases exec_next_cases hx with ⟨r0, r1, e, rfl⟩ | ⟨kind, rfl, hlaunch, rfl⟩
    · exact .short rest w r0 r1 e hidle hp
    · obtain rfl := decode_eq_ok_iff.1 hdec
      exact .launch rest kind hidle hp hlaunch
  · exact .short rest w s.res0 s.res1 .illegalCmd hidle hp

theorem hostWrite_effect {addr width : Nat} {v : Word}
    (hp : s.pending = .hostWrite addr width v :: rest)
    (h : hostWrite addr width v (s.withPending rest) = .next t) : StepEffect s t := by
  have hwork := movesWork_lt_of_cons hp
  obtain ⟨haccess, hreg⟩ := hostWrite_next h
  rcases hostWriteReg_next hreg with ⟨hcmd, hidle, hissue⟩ | ⟨-, rfl⟩
  · obtain ⟨hlo, -, rfl, -⟩ := registerAccessProblem_eq_none_iff.1 haccess
    have hoff : addr - s.plat.regBase = 0 := regAt_eq_cmd hcmd
    obtain rfl : addr = s.plat.regBase := Nat.le_antisymm (Nat.le_of_sub_eq_zero hoff) hlo
    exact issue_effect hp hidle hissue
  · rcases writeReg_cases (s.withPending rest) (s.plat.regOf addr) v with
      hw | ⟨hidle, ⟨-, hw⟩ | ⟨-, hw⟩ | ⟨-, hw⟩⟩ <;> rw [State.withPending_plat, hw]
    · exact .observe rest s.reads s.draws hwork
    · exact .operand rest v s.arg1 s.arg2 hidle hwork
    · exact .operand rest s.arg0 v s.arg2 hidle hwork
    · exact .operand rest s.arg0 s.arg1 v hidle hwork

/-- The engine's step before the moves `l`: the completion of the scan, or no change but the moves.
-/
theorem engineStep_withPending_cases (s : State) (l : List Move) :
    (s.scan = none ∧ engineStep (s.withPending l) = s.withPending l) ∨
      ∃ c, s.scan = some c ∧ engineStep (s.withPending l) = (completeScan c s).withPending l := by
  rcases engineStep_cases (s.withPending l) with ⟨hscan, he⟩ | ⟨c, hscan, he⟩
  · exact .inl ⟨hscan, he⟩
  · exact .inr ⟨c, hscan, he.trans (completeScan_withPending c s l)⟩

theorem waitPoll_effect {polls : Nat} (hp : s.pending = .wait polls :: rest)
    (h : waitPoll polls (s.withPending rest) = .next t) : StepEffect s t := by
  rcases waitPoll_cases polls (s.withPending rest) with
    ⟨-, hw⟩ | ⟨hbusy, rfl, hw⟩ | ⟨-, k, rfl, hw⟩ <;> rw [hw] at h <;> cases h
  case inl => exact .observe rest _ s.draws (movesWork_lt_of_cons hp)
  case inr.inr =>
    refine .observe (.wait k :: rest) _ s.draws ?_
    rw [hp, movesWork_cons, movesWork_cons, Move.work, Move.work]
    omega
  case inr.inl =>
    rw [State.withPending_pending, ← hp]
    rcases engineStep_withPending_cases s rest with ⟨hscan, he⟩ | ⟨c, hscan, he⟩ <;> rw [he]
    · exact .stay hscan (.inr hbusy)
    · exact .complete s.pending c hscan (Nat.le_refl _)

theorem makeMove_effect {m : Move} (hp : s.pending = m :: rest)
    (h : makeMove m (s.withPending rest) = .next t) : StepEffect s t := by
  have hwork := movesWork_lt_of_cons hp
  cases m with
  | hostWrite addr width v => exact hostWrite_effect hp h
  | hostRead addr width =>
    obtain ⟨-, rfl⟩ := hostRead_next h
    exact .observe rest _ s.draws hwork
  | memWrite a bytes =>
    obtain ⟨hspace, hfree, rfl⟩ := hostMemWrite_next h
    exact .store rest a bytes hspace hfree hwork
  | memRead a count =>
    rw [hostMemRead_next h]
    exact .observe rest _ _ hwork
  | wait polls => exact waitPoll_effect hp h
  | engine =>
    cases h
    rcases engineStep_withPending_cases s rest with ⟨-, he⟩ | ⟨c, hscan, he⟩ <;> rw [he]
    · exact .observe rest s.reads s.draws hwork
    · exact .complete rest c hscan (Nat.le_of_lt hwork)
  | reset =>
    cases h
    exact .reset rest hp

end

/-- Everything a step can do to the whole state. -/
theorem step_effect {s t : State} (h : step s = .next t) : StepEffect s t := by
  rcases step_next h with ⟨hp, rfl⟩ | ⟨m, rest, hp, hm⟩
  · rcases engineStep_cases s with ⟨hscan, he⟩ | ⟨c, hscan, he⟩ <;> rw [he]
    · exact .stay hscan (.inl hp)
    · exact .complete s.pending c hscan (Nat.le_refl _)
  · exact makeMove_effect hp hm

/-! ## What reset leaves and what it clears -/

section
variable (s : State)

@[simp] theorem State.resetBlock_plat : s.resetBlock.plat = s.plat := by
  rcases resetBlock_cases s with ⟨-, h⟩ | ⟨c, -, -, h⟩ <;> rw [h] <;> rfl

@[simp] theorem State.resetBlock_pending : s.resetBlock.pending = s.pending := by
  rcases resetBlock_cases s with ⟨-, h⟩ | ⟨c, -, -, h⟩ <;> rw [h] <;> rfl

@[simp] theorem State.resetBlock_reads : s.resetBlock.reads = s.reads := by
  rcases resetBlock_cases s with ⟨-, h⟩ | ⟨c, -, -, h⟩ <;> rw [h] <;> rfl

@[simp] theorem State.resetBlock_scan : s.resetBlock.scan = none := by
  obtain ⟨u, hu⟩ := resetBlock_eq_resetRegisters s
  rw [hu, State.resetRegisters_scan]

@[simp] theorem State.resetBlock_status : s.resetBlock.status = 0 := by
  obtain ⟨u, hu⟩ := resetBlock_eq_resetRegisters s
  rw [hu, State.resetRegisters_status]

@[simp] theorem State.busy_resetBlock : s.resetBlock.busy = false := by
  simp [State.busy]

end

/-! ## The obligations -/

/-- Settles O40: no effect of a step writes the platform. -/
theorem openParametersNeverChange : Obligations.OpenParametersNeverChange := by
  intro s t h
  cases step_effect h with
  | reset l => exact State.resetBlock_plat _
  | _ => rfl

/-- A host write that overlaps none of the guarded regions leaves their bytes. -/
theorem read_writeBytes_of_not_overlaps (m : Memory) {r : Span} {a x : Nat} {bytes : List Byte}
    (hfree : r.overlaps ⟨a, bytes.length⟩ = false) (hx : r.holds x = true) :
    (m.writeBytes a bytes).read x = m.read x := by
  have hout := Bool.eq_false_iff.1 (Span.not_overlaps_iff.1 hfree x hx)
  rw [ne_eq, Span.holds_iff] at hout
  dsimp only at hout
  exact Memory.read_writeBytes_other m bytes (by omega)

/-- Settles O33: of the effects that leave BUSY = 1, only a host write to memory changes more than
the moves, the reads and the draws, and it keeps off the scan's regions (`70_reset_and_hazards.md`
R115). -/
theorem nothingMovesWhileBusy : Obligations.NothingMovesWhileBusy := by
  intro s t h hbusy hbusy'
  cases step_effect h with
  | stay => simp
  | observe => simp
  | store l a bytes _ hfree =>
    refine ⟨rfl, rfl, rfl, rfl, rfl, rfl, rfl, rfl, fun c r x hscan hr hx => ?_⟩
    have hguard : r ∈ s.guarded := by rwa [State.guarded, hscan]
    exact read_writeBytes_of_not_overlaps s.mem (hfree r hguard) hx
  | operand _ _ _ _ hidle => simp [hidle] at hbusy
  | short _ _ _ _ _ hidle => simp [hidle] at hbusy
  | launch _ _ hidle => simp [hidle] at hbusy
  | complete => simp at hbusy'
  | reset => simp at hbusy'

/-- Settles O34: `StepEffect.launch` alone raises BUSY; `StepEffect.complete` and `StepEffect.reset`
alone lower it. -/
theorem busyFollowsTheScan : Obligations.BusyFollowsTheScan := by
  intro s t h
  constructor
  · intro hidle hbusy
    cases step_effect h with
    | launch l kind _ hp =>
      refine ⟨_, l, hp, rfl, ?_⟩
      cases kind with
      | len => exact .inl (decode_encode .len)
      | xfw => exact .inr (decode_encode .xfw)
    | complete => simp at hbusy
    | reset => simp at hbusy
    | short => simp [hidle] at hbusy
    | stay => simp [hidle] at hbusy
    | observe => exact absurd (hidle.symm.trans hbusy) (by decide)
    | operand => exact absurd (hidle.symm.trans hbusy) (by decide)
    | store => simp [hidle] at hbusy
  · intro hbusy hidle'
    cases step_effect h with
    | complete l c hscan => exact .inr ⟨c, hscan, rfl, completeScan_err c s, rfl, rfl, rfl⟩
    | reset l hp => exact .inl ⟨l, hp⟩
    | operand _ _ _ _ hidle => simp [hidle] at hbusy
    | short _ _ _ _ _ hidle => simp [hidle] at hbusy
    | launch => simp at hidle'
    | stay => exact absurd (hbusy.symm.trans hidle') (by decide)
    | observe => exact absurd (hbusy.symm.trans hidle') (by decide)
    | store => simp [hbusy] at hidle'

/-- Settles O35: `State.signal` stands in two effects, the short command and the completion, whose
context the invariant ties to BUSY; reset is the third way to a new ERR. -/
theorem errChangesOnlyAtCompletion : Obligations.ErrChangesOnlyAtCompletion := by
  intro s t hinv h herr
  cases step_effect h with
  | short l w _ _ _ hidle hp => exact .inl ⟨hidle, w, l, hp⟩
  | complete l c hscan =>
    have hbusy : s.busy = true := by rw [hinv.busyIffScan, hscan]; rfl
    exact .inr (.inl ⟨hbusy, completeScan_busy c s, completeScan_err c s⟩)
  | reset l hp => exact .inr (.inr ⟨l, hp⟩)
  | launch => simp at herr
  | stay => exact absurd rfl herr
  | observe => exact absurd rfl herr
  | operand => exact absurd rfl herr
  | store => exact absurd rfl herr

end Sys2Proof.Machine
end

section
/-! PROOF. The invariant (`10_state.md` R21, R24, R28, R31; `20_memory.md` R33, R43): it holds at
reset and each effect of a step keeps it, so that every run reaches its end. -/

namespace Sys2Proof.Machine

/-! ## Host memory in canonical form and in its space (`20_memory.md` R33) -/

/-- What `State.Inv` asks of host memory. -/
structure Memory.Good (m : Memory) : Prop where
  wf : m.wf = true
  inSpace : ∀ c ∈ m, c.1 < Config.memSize

section
variable {m : Memory}

theorem Memory.Good.writeBytes (h : m.Good) {a : Nat} {bytes : List Byte}
    (ha : a + bytes.length ≤ Config.memSize) : (m.writeBytes a bytes).Good where
  wf := Memory.writeBytes_wf h.wf a bytes
  inSpace c hc := by
    rcases Memory.mem_writeBytes hc with hc | ⟨-, hhi⟩
    · exact h.inSpace c hc
    · omega

theorem Memory.Good.writeFree (h : m.Good) {a len : Nat} (k : Nat)
    (ha : a + len ≤ Config.memSize) : (m.writeFree a k len).Good where
  wf := Memory.writeFree_wf h.wf a k len
  inSpace c hc := by
    rcases Memory.mem_writeFree hc with hc | ⟨-, hhi⟩
    · exact h.inSpace c hc
    · omega

/-- A code point in one of the first n slots of an output region inside the space. -/
theorem Memory.Good.emitSlot (h : m.Good) {out n k : Nat} (cp : Nat) (hk : k < n)
    (hout : out + 4 * n ≤ Config.memSize) : (emitSlot out k cp m).Good :=
  h.writeBytes (by rw [bytesOf_length]; omega)

end

/-- One emission of a scan whose output region, if it has one, lies inside the space. -/
theorem ScanCtx.emit_good {c : ScanCtx} {m : Memory} {k : Nat} (cp : Nat)
    (hspace : ∀ r ∈ c.regions, r.inSpace = true) (hk : k < c.n.toNat) (hm : m.Good) :
    (c.emit k cp m).Good := by
  rw [ScanCtx.emit]
  cases hkind : c.kind with
  | len => exact hm
  | xfw =>
    have hout : c.output.inSpace = true := hspace _ (by simp [ScanCtx.regions, hkind])
    exact hm.emitSlot cp hk (Span.inSpace_iff.1 hout)

/-- One turn of a scan keeps memory good: a unit counted is a slot below n. -/
theorem scanTurn_mem_good {emit : Nat → Nat → Memory → Memory} {base n : Nat} {l : ScanLoop}
    (hemit : ∀ cp, (emit l.count cp l.mem).Good) (hm : l.mem.Good) :
    (scanTurn emit base n l).mem.Good := by
  rcases scanTurn_cases emit base n l with
    ⟨-, ht⟩ | ⟨w, -, ⟨-, ht⟩ | ⟨-, cp, -, ht⟩ | ⟨-, -, ht⟩⟩ <;> rw [ht]
  case inr.inr.inl => exact hemit cp
  all_goals exact hm

/-- The whole of a launched scan keeps memory good. -/
theorem ScanCtx.run_mem_good {c : ScanCtx} {m : Memory}
    (hspace : ∀ r ∈ c.regions, r.inSpace = true) (hcursor : c.cursor ≤ c.n.toNat)
    (hcount : c.count ≤ c.cursor) (hm : m.Good) : (c.run m).mem.Good := by
  obtain ⟨hgood, -, -⟩ : (c.run m).mem.Good ∧ (c.run m).count ≤ (c.run m).p ∧
      (c.run m).p ≤ c.n.toNat := by
    refine scanFn_induction (fun l => l.mem.Good ∧ l.count ≤ l.p ∧ l.p ≤ c.n.toNat)
      (fun l hl hlt => ?_) ⟨hm, hcount, hcursor⟩
    obtain ⟨hlm, hlc, -⟩ := hl
    have hcountNext := scanTurn_count_le c.emit c.base.toNat c.n.toNat l
    obtain ⟨hgt, hle⟩ := scanTurn_p_bounds c.emit (base := c.base.toNat) hlt
    exact ⟨scanTurn_mem_good (fun cp => c.emit_good cp hspace (by omega) hlm) hlm, by omega, hle⟩
  exact hgood

/-! ## The invariant of an idle and of a running block -/

section
variable {s t : State}

theorem State.Inv.memGood (h : s.Inv) : s.mem.Good := ⟨h.memWf, h.memInSpace⟩

theorem State.Inv.scan_eq_none (h : s.Inv) (hidle : s.busy = false) : s.scan = none := by
  rwa [h.busyIffScan, Option.isSome_eq_false_iff, Option.isNone_iff_eq_none] at hidle

theorem ScanCtx.Latched.regions_inSpace {c : ScanCtx} (h : c.Latched s) :
    ∀ r ∈ c.regions, r.inSpace = true := by
  obtain ⟨hspace, -⟩ := launchProblem_eq_none_iff.1 h.launch
  exact hspace

/-- With no scan running the invariant is about memory and STATUS alone. -/
theorem State.inv_of_idle (hm : s.mem.Good) (hstatus : s.status.toNat < 8) (hidle : s.busy = false)
    (hscan : s.scan = none) : s.Inv where
  memWf := hm.wf
  memInSpace := hm.inSpace
  statusReserved := hstatus
  busyIffScan := by rw [hidle, hscan]; rfl
  latched c hc := by rw [hscan] at hc; cases hc

/-- The invariant does not look at RES0 and RES1, the moves, the reads and the draws. -/
theorem State.Inv.congr (h : s.Inv) (hm : t.mem.Good)
    (hregs : t.cmd = s.cmd ∧ t.arg0 = s.arg0 ∧ t.arg1 = s.arg1 ∧ t.arg2 = s.arg2)
    (hstatus : t.status = s.status) (hscan : t.scan = s.scan) (hplat : t.plat = s.plat) :
    t.Inv := by
  obtain ⟨hcmd, h0, h1, h2⟩ := hregs
  refine ⟨hm.wf, hm.inSpace, by rw [hstatus]; exact h.statusReserved, ?_, fun c hc => ?_⟩
  · rw [State.busy, hstatus, hscan]
    exact h.busyIffScan
  · rw [hscan] at hc
    obtain ⟨lcmd, lbase, ln, lout, llaunch, lcursor, lcount⟩ := h.latched c hc
    exact ⟨hcmd.trans lcmd, lbase.trans h0.symm, ln.trans h1.symm, lout.trans h2.symm,
      hplat ▸ llaunch, lcursor, lcount⟩

/-- A scan that its launch conditions let start has a context latched from CMD and the operands. -/
theorem State.inv_launch {kind : ScanKind} (hm : s.mem.Good) (hcmd : s.cmd = encode kind.instr)
    (hlaunch : launchProblem s.plat (scanOperands kind s) = none) :
    (s.startScan (scanOperands kind s)).Inv where
  memWf := hm.wf
  memInSpace := hm.inSpace
  statusReserved := withBusy_toNat_lt _ _
  busyIffScan := State.busy_startScan _ _
  latched c hc := by
    obtain rfl : scanOperands kind s = c := Option.some.inj hc
    exact ⟨hcmd, rfl, rfl, rfl, hlaunch, Nat.zero_le _, Nat.le_refl 0⟩

theorem State.Inv.completeScan (h : s.Inv) {c : ScanCtx} (hc : s.scan = some c) :
    (completeScan c s).Inv := by
  have hl := h.latched c hc
  exact State.inv_of_idle (c.run_mem_good hl.regions_inSpace hl.cursor hl.count h.memGood)
    (by simp) (by simp) rfl

theorem State.Inv.resetBlock (h : s.Inv) : s.resetBlock.Inv := by
  refine State.inv_of_idle ?_ (by simp) (by simp) (by simp)
  rcases resetBlock_cases s with ⟨-, hr⟩ | ⟨c, hc, hkind, hr⟩ <;> rw [hr]
  · exact h.memGood
  · have hout : c.output.inSpace = true :=
      (h.latched c hc).regions_inSpace _ (by simp [ScanCtx.regions, hkind])
    exact h.memGood.writeFree s.draws (Span.inSpace_iff.1 hout)

theorem State.Inv.withPending (h : s.Inv) (l : List Move) : (s.withPending l).Inv :=
  h.congr h.memGood ⟨rfl, rfl, rfl, rfl⟩ rfl rfl rfl

/-- Each effect of a step keeps the invariant. -/
theorem StepEffect.inv (he : StepEffect s t) (h : s.Inv) : t.Inv := by
  cases he with
  | stay => exact h
  | observe => exact h.congr h.memGood ⟨rfl, rfl, rfl, rfl⟩ rfl rfl rfl
  | operand _ _ _ _ hidle =>
    exact State.inv_of_idle h.memGood h.statusReserved hidle (h.scan_eq_none hidle)
  | short _ _ _ _ _ hidle =>
    exact State.inv_of_idle h.memGood (withErr_toNat_lt _ _) (by simpa using hidle)
      (h.scan_eq_none hidle)
  | launch l kind _ _ hlaunch =>
    exact State.inv_launch (s := (s.withPending l).storeCmd (encode kind.instr)) h.memGood rfl
      hlaunch
  | store _ a bytes hspace =>
    exact h.congr (h.memGood.writeBytes hspace) ⟨rfl, rfl, rfl, rfl⟩ rfl rfl rfl
  | complete l c hscan => exact (h.completeScan hscan).withPending l
  | reset l => exact (h.withPending l).resetBlock

end

/-! ## The work left -/

section
variable {s t : State}

theorem movesWork_eq_zero_iff {l : List Move} : movesWork l = 0 ↔ l = [] := by
  cases l with
  | nil => simp
  | cons m l => simp [Nat.ne_of_gt m.work_pos]

/-- No work is left exactly at the end of a run (`70_reset_and_hazards.md` R122). -/
theorem State.Inv.work_eq_zero_iff (h : s.Inv) : s.work = 0 ↔ s.ended := by
  rw [State.work_eq, State.ended, h.busyIffScan, Nat.add_eq_zero_iff, movesWork_eq_zero_iff,
    Bool.toNat_eq_zero]

/-- Every effect of a step takes work off, until none is left. -/
theorem StepEffect.work_le (he : StepEffect s t) (h : s.Inv) : t.work ≤ s.work - 1 := by
  cases he with
  | stay hscan hwhy =>
    have hidle : s.busy = false := by rw [h.busyIffScan, hscan]; rfl
    have hp : s.pending = [] := hwhy.resolve_right (by simp [hidle])
    have hwork : s.work = 0 := h.work_eq_zero_iff.2 ⟨hp, hidle⟩
    omega
  | observe l v k hwork => simp only [State.work_eq]; omega
  | operand l a0 a1 a2 _ hwork => simp only [State.work_eq]; omega
  | short l w r0 r1 e _ hp =>
    simp only [State.work_eq, hp, movesWork_cons, Move.work, State.signal_pending,
      State.signal_scan, State.writeResults_pending, State.writeResults_scan,
      State.storeCmd_pending, State.storeCmd_scan, State.withPending_pending,
      State.withPending_scan]
    omega
  | launch l kind _ hp =>
    simp only [State.work_eq, hp, movesWork_cons, Move.work, State.startScan_pending,
      State.startScan_scan, State.storeCmd_pending, State.withPending_pending, Option.isSome_some,
      Bool.toNat_true]
    omega
  | store l a bytes _ _ hwork =>
    simp only [State.work_eq, State.setMem_pending, State.setMem_scan, State.withPending_pending,
      State.withPending_scan]
    omega
  | complete l c hscan hwork =>
    simp only [State.work_eq, hscan, State.withPending_pending, State.withPending_scan,
      completeScan_scan, Option.isSome_some, Option.isSome_none, Bool.toNat_true, Bool.toNat_false]
    omega
  | reset l hp =>
    simp only [State.work_eq, hp, movesWork_cons, Move.work, State.resetBlock_pending,
      State.resetBlock_scan, State.withPending_pending, Option.isSome_none, Bool.toNat_false]
    omega

end

/-- A run that makes a step makes it to a next state, and goes on from there. -/
theorem run_succ_next {s t : State} {k : Nat} (h : Host.Core.run core (k + 1) s = .next t) :
    ∃ u, step s = .next u ∧ Host.Core.run core k u = .next t := by
  cases hs : step s with
  | next u => exact ⟨u, rfl, (run_succ_of_next k hs).symm.trans h⟩
  | fault f => rw [run_succ_of_fault k hs] at h; cases h
  | refused r => rw [run_succ_of_refused k hs] at h; cases h

/-- A run of as many steps as work is left, or more, ends. -/
theorem ended_of_run {s t : State} {k : Nat} (hinv : s.Inv) (hk : s.work ≤ k)
    (h : Host.Core.run core k s = .next t) : t.ended := by
  induction k generalizing s with
  | zero =>
    cases h
    exact hinv.work_eq_zero_iff.1 (Nat.le_zero.1 hk)
  | succ k ih =>
    obtain ⟨u, hstep, hrun⟩ := run_succ_next h
    have he := step_effect hstep
    have hwork := he.work_le hinv
    exact ih (he.inv hinv) (by omega) hrun

/-! ## The obligations -/

/-- Settles O38: the block is idle at reset, and memory lists nothing. -/
theorem invariantHoldsAtReset : Obligations.InvariantHoldsAtReset :=
  State.inv_of_idle ⟨reset_memory_wf, by simp [State.reset]⟩ (by decide) (by decide) rfl

/-- Settles O39: effect by effect; a context is made by `StepEffect.launch` alone, and writes to the
registers it was latched from need BUSY = 0. -/
theorem stepKeepsInvariant : Obligations.StepKeepsInvariant :=
  fun _ _ hinv h => (step_effect h).inv hinv

/-- Settles O42: `State.work` falls at each step until it is 0, where the run has ended. -/
theorem everyRunEnds : Obligations.EveryRunEnds :=
  fun _ _ hinv h => ended_of_run hinv (Nat.le_refl _) h

end Sys2Proof.Machine
end

section
/-! PROOF. What the commands share (`10_state.md` R21, R29; `42_decoder.md` R81; `60_exceptions.md`
R98, R100): each completes or is a refused launch, a short one's outcome is a matter of ARG0 alone
and ends with one of its own ERR codes, and DEC undoes ENC on the registers. -/

namespace Sys2Proof.Machine

section
variable {s : State}

/-! ## The outcome of a short command whose operand is known -/

theorem exec_cext_of_cont (h : classify (byteOperand s) = .cont) : exec .cext s =
    .next ((s.writeResults (zext32 (contPayload (byteOperand s))) 0).signal .none) := if_pos h

theorem exec_cext_of_not_cont (h : classify (byteOperand s) ≠ .cont) :
    exec .cext s = .next ((s.writeResults 0 0).signal .invalid) := if_neg h

theorem exec_enc_of_outOfRange (h : encodeFn (codePointOperand s) = .outOfRange) :
    exec .enc s = .next (s.signal .outOfRange) := by
  simp only [exec, execEnc, h]

theorem exec_dec_of_ok {cp w : Nat} (h : decodeFn (windowOperand s) = .ok cp w) :
    exec .dec s = .next ((s.writeResults (zext32 cp) (zext32 w)).signal .none) := by
  simp only [exec, execDec, h]

theorem exec_dec_of_invalid (h : decodeFn (windowOperand s) = .invalid) :
    exec .dec s = .next ((s.writeResults 0 0).signal .invalid) := by
  simp only [exec, execDec, h]

/-! ## Operands are read from ARG0 (`30_encoding.md` R55) -/

theorem byteOperand_congr {s' : State} (h : s'.arg0 = s.arg0) : byteOperand s' = byteOperand s := by
  rw [byteOperand, byteOperand, h]

theorem windowOperand_congr {s' : State} (h : s'.arg0 = s.arg0) :
    windowOperand s' = windowOperand s := by
  rw [windowOperand, windowOperand, h]

variable (s) in
/-- What a short command writes in `s` it writes in every state with the same ARG0: two words and a
code, or OUT_OF_RANGE alone (`10_state.md` R29). -/
theorem exec_short_of_arg0 {i : Instr} (hlen : i ≠ .len) (hxfw : i ≠ .xfw) :
    (∃ r0 r1 e, ∀ s' : State, s'.arg0 = s.arg0 →
      exec i s' = .next ((s'.writeResults r0 r1).signal e)) ∨
    ∀ s' : State, s'.arg0 = s.arg0 → exec i s' = .next (s'.signal .outOfRange) := by
  cases i with
  | cls =>
    refine .inl ⟨zext32 (classCode (classify (byteOperand s))), zext32 (payload (byteOperand s)),
      .none, fun s' h => ?_⟩
    rw [exec_cls, byteOperand_congr h]
  | cext =>
    rcases exec_cext_cases s with ⟨hc, -⟩ | ⟨hc, -⟩
    · refine .inl ⟨zext32 (contPayload (byteOperand s)), 0, .none, fun s' h => ?_⟩
      rw [← byteOperand_congr h] at hc
      rw [exec_cext_of_cont hc, byteOperand_congr h]
    · exact .inl ⟨_, _, _, fun s' h => exec_cext_of_not_cont ((byteOperand_congr h).symm ▸ hc)⟩
  | enc =>
    rcases exec_enc_cases s with ⟨bytes, w, he, -⟩ | ⟨he, -⟩ <;> rw [codePointOperand] at he
    · exact .inl ⟨_, _, _, fun s' h => exec_enc_of_ok (h.symm ▸ he)⟩
    · exact .inr fun s' h => exec_enc_of_outOfRange (by rw [codePointOperand, h, he])
  | dec =>
    rcases exec_dec_cases s with ⟨cp, w, hd, -⟩ | ⟨hd, -⟩
    · exact .inl ⟨_, _, _, fun s' h => exec_dec_of_ok ((windowOperand_congr h).symm ▸ hd)⟩
    · exact .inl ⟨_, _, _, fun s' h => exec_dec_of_invalid ((windowOperand_congr h).symm ▸ hd)⟩
  | len => exact absurd rfl hlen
  | xfw => exact absurd rfl hxfw

/-! ## Every command answers -/

variable (s) in
theorem issueScan_answers (kind : ScanKind) :
    (∃ t, issueScan kind s = .next t) ∨ ∃ r, issueScan kind s = .refused r := by
  by_cases hlaunch : launchProblem s.plat (scanOperands kind s) = none
  · exact .inl ⟨_, issueScan_of_launch hlaunch⟩
  · exact .inr (issueScan_refused_of_ne_none hlaunch)

/-- A command goes on to a next state, or is a launch that is refused (`60_exceptions.md` R98). -/
theorem exec_answers (i : Instr) (s : State) : (∃ t, exec i s = .next t) ∨
    ((i = .len ∨ i = .xfw) ∧ ∃ r, exec i s = .refused r) := by
  by_cases hlen : i = .len
  · subst hlen
    exact (issueScan_answers s .len).imp_right fun h => ⟨.inl rfl, h⟩
  by_cases hxfw : i = .xfw
  · subst hxfw
    exact (issueScan_answers s .xfw).imp_right fun h => ⟨.inr rfl, h⟩
  rcases exec_short_of_arg0 s hlen hxfw with ⟨r0, r1, e, h⟩ | h
  · exact .inl ⟨_, h s rfl⟩
  · exact .inl ⟨_, h s rfl⟩

/-! ## ENC, then DEC -/

/-- DEC's window on a packed unit starts with the unit's bytes (`41_encoder.md` R71, `42_decoder.md`
R82). -/
theorem windowOperand_take_of_packed {l : List Byte} (hl : l.length ≤ 4)
    (h : s.arg0 = zext32 (pack l)) : (windowOperand s).toList.take l.length = l := by
  have hlen : (windowOperand s).toList.length = 4 := rfl
  apply List.ext_getElem
  · rw [List.length_take, hlen, Nat.min_eq_left hl]
  · intro k _ hk
    have hbyte : byteOf s.arg0 k = l[k] := by
      apply BitVec.eq_of_toNat_eq
      rw [byteOf_toNat_eq_byteNat, h, byteNat_zext32_pack hl, List.getD_eq_getElem l 0 hk]
    rw [List.getElem_take, ← hbyte, ← windowOperand_getD s (by omega), List.getD_eq_getElem]

end

/-! ## The obligations -/

/-- Settles O18: the window that ENC packs starts with the code point's unit, which decodes to it.
-/
theorem encThenDecRestores : Obligations.EncThenDecRestores := by
  intro s hc
  obtain ⟨bytes, w, henc, -⟩ := encodeFn_ok_of_le (c := s.arg0.toNat) hc
  have hlen := encodeFn_ok_length henc
  obtain ⟨-, hw⟩ := encodeFn_ok_bounds henc
  have htake := windowOperand_take_of_packed
    (s := { ((s.writeResults (zext32 (pack bytes)) (zext32 w)).signal .none) with
      arg0 := zext32 (pack bytes) }) (l := bytes) (by omega) rfl
  rw [hlen] at htake
  refine ⟨_, _, exec_enc_of_ok henc, exec_dec_of_ok (decodeFn_of_encodeFn henc htake), ?_, rfl,
    State.err_signal _ _⟩
  exact (BitVec.ofNat_toNat ..).trans (BitVec.setWidth_eq _)

/-- Settles O29: the outcome read off for one of the two states is the other's, too. -/
theorem shortCommandsHaveNoHiddenState : Obligations.ShortCommandsHaveNoHiddenState := by
  intro s s' t t' i hlen hxfw harg h h'
  rcases exec_short_of_arg0 s hlen hxfw with ⟨r0, r1, e, hx⟩ | hx <;>
    rw [hx s rfl] at h <;> rw [hx s' harg.symm] at h' <;> cases h <;> cases h'
  · exact ⟨by simp, fun _ => ⟨rfl, rfl⟩⟩
  · exact ⟨by simp, fun herr => absurd (State.err_signal s .outOfRange) herr⟩

/-- Settles O36: by the outcomes of each command; the issue of a scan writes BUSY and not ERR. -/
theorem errCodesHaveTheirWriters : Obligations.ErrCodesHaveTheirWriters := by
  intro i s t h
  refine ⟨?cls, ?cext, ?enc, ?dec, ?scan⟩
  case cls =>
    rintro rfl
    rw [exec_cls] at h
    cases h
    exact State.err_signal _ _
  case cext =>
    rintro rfl
    rcases exec_cext_cases s with ⟨-, hx⟩ | ⟨-, hx⟩ <;> rw [hx] at h <;> cases h
    · exact .inl (State.err_signal _ _)
    · exact .inr (State.err_signal _ _)
  case enc =>
    rintro rfl
    rcases exec_enc_cases s with ⟨bytes, w, -, hx⟩ | ⟨-, hx⟩ <;> rw [hx] at h <;> cases h
    · exact .inl (State.err_signal _ _)
    · exact .inr (State.err_signal _ _)
  case dec =>
    rintro rfl
    rcases exec_dec_cases s with ⟨cp, w, -, hx⟩ | ⟨-, hx⟩ <;> rw [hx] at h <;> cases h
    · exact .inl (State.err_signal _ _)
    · exact .inr (State.err_signal _ _)
  case scan =>
    rintro (rfl | rfl)
    · obtain ⟨-, rfl⟩ := exec_len_next_iff.1 h
      exact State.err_startScan _ _
    · obtain ⟨-, rfl⟩ := exec_xfw_next_iff.1 h
      exact State.err_startScan _ _

end Sys2Proof.Machine
end

section
/-! PROOF. A scan from outside (`43_scanners.md` R93; `20_memory.md` R42; `70_reset_and_hazards.md`
R116): it ends at n, its outcome is a matter of its operands and the bytes of its input region, and
with the operands of reset there is no such byte. -/

namespace Sys2Proof.Machine

/-! ## The end of the loop (`43_scanners.md` R93) -/

/-- As many turns as bytes are left take the cursor to n. -/
theorem scanTurns_p_eq (emit : Nat → Nat → Memory → Memory) (base : Nat) {n fuel : Nat}
    {l : ScanLoop} (hp : l.p ≤ n) (hfuel : n - l.p ≤ fuel) :
    (scanTurns emit base n fuel l).p = n := by
  induction fuel generalizing l with
  | zero => rw [scanTurns_zero]; omega
  | succ fuel ih =>
    rcases Nat.lt_or_ge l.p n with hlt | hge
    · obtain ⟨hgt, hle⟩ := scanTurn_p_bounds emit (base := base) hlt
      rw [scanTurns_succ_of_lt fuel hlt]
      exact ih hle (by omega)
    · rw [scanTurns_of_le _ hge]
      exact Nat.le_antisymm hp hge

/-! ## Two scans of the same bytes -/

section
variable {s s' : State}

theorem codePointsOf_congr {m m' : Memory} {input : Span}
    (h : ∀ a, input.start ≤ a → a < input.start + input.len → m.read a = m'.read a) :
    codePointsOf m input = codePointsOf m' input := by
  rw [codePointsOf, codePointsOf, validUnits_congr h]

/-- Two XFW scans with one output address that find the same code points write the same slots. -/
theorem scanResult_xfw_slots_congr (h : xfwMayLaunch s) (h' : xfwMayLaunch s')
    (hm : s.mem.wf = true) (hm' : s'.mem.wf = true) (hout : s.arg2 = s'.arg2)
    (hcps : codePointsOf s.mem (inputOf s) = codePointsOf s'.mem (inputOf s')) {a : Nat}
    (hlo : s.arg2.toNat ≤ a) (hhi : a < s.arg2.toNat + 4 * (scanResult .xfw s).res0.toNat) :
    (scanResult .xfw s).mem.read a = (scanResult .xfw s').mem.read a := by
  obtain ⟨hcount, -⟩ := scanResult_xfw h
  obtain ⟨k, j, hj, rfl⟩ : ∃ k j, j < 4 ∧ a = s.arg2.toNat + 4 * k + j :=
    ⟨(a - s.arg2.toNat) / 4, (a - s.arg2.toNat) % 4, by omega, by omega⟩
  have hk : k < (codePointsOf s.mem (inputOf s)).length := by omega
  obtain ⟨cp, hcp⟩ : ∃ cp, (codePointsOf s.mem (inputOf s))[k]? = some cp :=
    ⟨_, List.getElem?_eq_getElem hk⟩
  rw [scanResult_xfw_read_slot h hm hcp hj, hout,
    scanResult_xfw_read_slot h' hm' (hcps ▸ hcp) hj]

/-! ## A scan of no bytes -/

/-- With ARG1 = 0 the loop takes no turn. -/
theorem scanResult_of_empty (kind : ScanKind) (hn : s.arg1 = 0) :
    (scanResult kind s).res0 = 0 ∧ (scanResult kind s).mem = s.mem := by
  have hrun : (scanOperands kind s).run s.mem = ⟨0, 0, s.mem⟩ := by
    apply scanTurns_of_le
    simp [scanOperands, hn]
  rw [scanResult_eq_completeScan, completeScan_res0, completeScan_mem, State.startScan_mem, hrun]
  exact ⟨rfl, rfl⟩

end

theorem exec_scan (kind : ScanKind) (s : State) : exec kind.instr s = issueScan kind s := by
  cases kind
  · exact exec_len s
  · exact exec_xfw s

/-- With every operand 0, as at reset, no condition of a launch can fail (`20_memory.md` R43). -/
theorem launchProblem_of_reset_operands (kind : ScanKind) (p : Platform) :
    launchProblem p (scanOperands kind State.reset) = none := by
  have hempty : ∀ r ∈ (scanOperands kind State.reset).regions, r = ⟨0, 0⟩ := by
    cases kind <;> simp [ScanCtx.regions, scanOperands, State.reset, ScanCtx.input, ScanCtx.output]
  refine launchProblem_eq_none_iff.2
    ⟨fun r hr => ?_, fun r hr => ?_, fun _ => rfl, fun r hr => ?_⟩ <;> rw [hempty r hr] <;> rfl

/-- The word of a scan command placed after reset: it is issued, and with no move left its scan
completes in the step after. -/
theorem scan_after_reset (kind : ScanKind) :
    ∃ t, step (State.reset.withFetchWord 32 (encode kind.instr).toNat) = .next t ∧ t.busy = true ∧
      ∃ s : State, s.arg1 = 0 ∧ s.mem = State.reset.mem ∧ step t = .next (scanResult kind s) := by
  have hlaunch := launchProblem_of_reset_operands kind State.reset.plat
  refine ⟨_, ?_, State.busy_startScan _ _, State.reset.endScan.storeCmd (encode kind.instr), rfl,
    rfl, step_of_nil rfl⟩
  rw [fetchWordIsIssuedNext _ _ _ (decode_encode _), exec_scan]
  exact issueScan_of_launch hlaunch

/-! ## The obligations -/

/-- Settles O21: each turn moves the cursor on, and the loop has a turn for each byte left. -/
theorem scanMakesProgress : Obligations.ScanMakesProgress :=
  fun emit base _ _ =>
    ⟨scanTurn_p_bounds emit, fun hp => scanTurns_p_eq emit base hp (Nat.le_refl _)⟩

/-- Settles O28: the region's bytes fix the list of code points, and the list fixes count and slots.
-/
theorem scanDependsOnInputRegionOnly : Obligations.ScanDependsOnInputRegionOnly := by
  intro s s' t t' i hi h0 h1 h2 hm hm' hbytes hx hx'
  have hinput : inputOf s = inputOf s' := by rw [inputOf, inputOf, h0, h1]
  have hcps : codePointsOf s.mem (inputOf s) = codePointsOf s'.mem (inputOf s') := by
    rw [← hinput]
    exact codePointsOf_congr hbytes
  rcases hi with rfl | rfl
  · obtain ⟨-, rfl⟩ := exec_len_next_iff.1 hx
    obtain ⟨-, rfl⟩ := exec_len_next_iff.1 hx'
    obtain ⟨hcount, -⟩ := scanResult_len s
    obtain ⟨hcount', -⟩ := scanResult_len s'
    exact ⟨BitVec.eq_of_toNat_eq (hcount.trans (hcps ▸ hcount'.symm)), fun hxfw => by cases hxfw⟩
  · obtain ⟨hlaunch, rfl⟩ := exec_xfw_next_iff.1 hx
    obtain ⟨hlaunch', rfl⟩ := exec_xfw_next_iff.1 hx'
    obtain ⟨hcount, -⟩ := scanResult_xfw hlaunch
    obtain ⟨hcount', -⟩ := scanResult_xfw hlaunch'
    exact ⟨BitVec.eq_of_toNat_eq (hcount.trans (hcps ▸ hcount'.symm)),
      fun _ a => scanResult_xfw_slots_congr hlaunch hlaunch' hm hm' h2 hcps⟩

/-- Settles O31: the operands are 0 at reset, so the launch conditions hold and the loop takes no
turn. -/
theorem scanStraightAfterResetReturnsZero : Obligations.ScanStraightAfterResetReturnsZero := by
  intro w hw
  obtain ⟨kind, rfl⟩ : ∃ kind : ScanKind, w = encode kind.instr := by
    rcases hw with rfl | rfl
    · exact ⟨.len, rfl⟩
    · exact ⟨.xfw, rfl⟩
  obtain ⟨t, hissue, hbusy, s, hn, hmem, hdone⟩ := scan_after_reset kind
  obtain ⟨hres, hkept⟩ := scanResult_of_empty kind hn
  refine ⟨t, _, hissue, hbusy, hdone, hres, ?_, hkept.trans hmem⟩
  rw [scanResult_eq_completeScan, completeScan_busy]

end Sys2Proof.Machine
end

section
/-! PROOF. The moves of the host (`10_state.md` R17 to R21; `20_memory.md` R46; `30_encoding.md`
R60; `70_reset_and_hazards.md` R113 to R115, R120): its register writes, its own memory, WAIT, and
reset. -/

namespace Sys2Proof.Machine

/-! ## Registers that ignore a write, and registers that store one -/

section
variable {s : State} {r : Reg}

theorem State.writeReg_of_idle (h : s.busy = false) (v : Word) :
    s.writeReg .arg0 v = { s with arg0 := v } ∧ s.writeReg .arg1 v = { s with arg1 := v } ∧
      s.writeReg .arg2 v = { s with arg2 := v } := by
  have hnot : ¬ s.busy = true := by simp [h]
  exact ⟨if_neg hnot, if_neg hnot, if_neg hnot⟩

/-- A write to any other register is lost, whether or not a scan runs (`10_state.md` R20, R21, R24).
-/
theorem State.writeReg_of_not_operand (h0 : r ≠ .arg0) (h1 : r ≠ .arg1) (h2 : r ≠ .arg2)
    (v : Word) : s.writeReg r v = s := by
  rcases writeReg_cases s r v with h | ⟨-, ⟨hr, -⟩ | ⟨hr, -⟩ | ⟨hr, -⟩⟩
  · exact h
  · exact absurd hr h0
  · exact absurd hr h1
  · exact absurd hr h2

end

/-! ## Host memory (`20_memory.md` R46) -/

section
variable {s : State} {rest : List Move} {a : Nat}

/-- An access to memory that answers, without side effects, goes on. -/
theorem hostMemAccess_of_ready {r : Span} {go : Host.Outcome State Fault Refusal}
    (h : r.ready s.plat) : hostMemAccess r s go = go := by
  obtain ⟨hspace, hadm, heff⟩ := Span.ready_iff.1 h
  exact hostMemAccess_of hspace hadm heff

/-- The only fault of an access is at a range past the end of memory (`20_memory.md` R33). -/
theorem hostMemAccess_fault {r : Span} {f : Fault} {go : Host.Outcome State Fault Refusal}
    (hgo : go ≠ .fault f) (h : hostMemAccess r s go = .fault f) :
    Config.memSize < r.start + r.len := by
  unfold hostMemAccess at h
  split at h
  case isTrue hout => simpa [Span.inSpace] using hout
  split at h
  case isTrue => cases h
  split at h
  case isTrue => cases h
  exact absurd h hgo

theorem step_memWrite_of_ready {bytes : List Byte} (hp : s.pending = .memWrite a bytes :: rest)
    (hready : (Span.mk a bytes.length).ready s.plat) :
    step s = if s.guarded.any (fun r => r.overlaps ⟨a, bytes.length⟩)
      then .refused .hostWriteDuringScan
      else .next ((s.withPending rest).setMem (s.mem.writeBytes a bytes)) := by
  rw [step_of_cons hp]
  exact hostMemAccess_of_ready (s := s.withPending rest) hready

/-- The bytes a host read from a returns. -/
def State.hostBytes (s : State) (a count : Nat) : List Byte := (List.range count).map (s.hostByte a)

theorem State.hostBytes_length (s : State) (a count : Nat) :
    (s.hostBytes a count).length = count := by
  rw [State.hostBytes, List.length_map, List.length_range]

/-- Where the contents are specified, a read returns what is stored (`20_memory.md` R38). -/
theorem State.hostBytes_getElem? {count k : Nat} (hk : k < count)
    (hspec : s.unspecifiedAt (a + k) = false) :
    (s.hostBytes a count)[k]? = some (s.mem.read (a + k)) := by
  rw [State.hostBytes, List.getElem?_map, List.getElem?_range hk, Option.map_some, State.hostByte,
    hspec]
  rfl

theorem step_memRead_of_ready {count : Nat} (hp : s.pending = .memRead a count :: rest)
    (hready : (Span.mk a count).ready s.plat) :
    step s = .next { s with
      pending := rest, reads := s.reads ++ [.bytes (s.hostBytes a count)],
      draws := s.draws + count } := by
  rw [step_of_cons hp]
  exact hostMemAccess_of_ready (s := s.withPending rest) hready

/-- Bytes written to memory are the bytes a host reads there when no scan runs. -/
theorem hostBytes_writeBytes (hscan : s.scan = none) (hm : s.mem.wf = true) (bytes : List Byte) :
    (s.setMem (s.mem.writeBytes a bytes)).hostBytes a bytes.length = bytes := by
  apply List.ext_getElem?
  intro k
  rcases Nat.lt_or_ge k bytes.length with hk | hk
  · rw [State.hostBytes_getElem? hk (by simp [State.unspecifiedAt, hscan]), State.setMem_mem,
      Memory.read_writeBytes_at hm a bytes hk, List.getElem?_eq_getElem hk]
  · rw [List.getElem?_eq_none (by rwa [State.hostBytes_length]), List.getElem?_eq_none hk]

end

/-! ## What can stop a step (`60_exceptions.md` R98) -/

section
variable {s : State} {f : Fault}

theorem exec_ne_fault (i : Instr) : exec i s ≠ .fault f := by
  rcases exec_answers i s with ⟨t, h⟩ | ⟨-, r, h⟩ <;> rw [h] <;> simp

theorem issue_ne_fault (w : Word) : issue w s ≠ .fault f := by
  unfold issue
  split
  · exact exec_ne_fault _
  · simp

theorem hostWrite_ne_fault (addr width : Nat) (v : Word) : hostWrite addr width v s ≠ .fault f := by
  unfold hostWrite hostWriteReg
  split
  · simp
  · split
    · exact issue_ne_fault v
    · simp

theorem hostRead_ne_fault (addr width : Nat) : hostRead addr width s ≠ .fault f := by
  unfold hostRead
  split <;> simp

theorem waitPoll_ne_fault (polls : Nat) : waitPoll polls s ≠ .fault f := by
  rcases waitPoll_cases polls s with ⟨-, h⟩ | ⟨-, -, h⟩ | ⟨-, k, -, h⟩ <;> rw [h] <;> simp

end

/-! ## WAIT (`30_encoding.md` R60) -/

section
variable {s : State} {rest : List Move} {polls : Nat}

theorem step_wait_of_idle (hp : s.pending = .wait polls :: rest) (hidle : s.busy = false) :
    step s = .next { s with
      pending := rest, reads := s.reads ++ [.word (s.readReg .status)] } := by
  have hnot : ¬ (s.withPending rest).busy = true := by simp [hidle]
  rw [step_of_cons hp]
  exact if_neg hnot

/-- With polls to come, WAIT reads STATUS and stays at the head of the moves. -/
theorem step_wait_of_busy (hp : s.pending = .wait (polls + 1) :: rest) (hbusy : s.busy = true) :
    step s = .next ((pollStatus s).withPending (.wait polls :: rest)) := by
  have hbusy' : (s.withPending rest).busy = true := by simp [hbusy]
  rw [step_of_cons hp]
  exact if_pos hbusy'

/-- With no poll to come, the scan completes and WAIT stays at the head of the moves. -/
theorem step_wait_zero_of_busy {c : ScanCtx} (hp : s.pending = .wait 0 :: rest)
    (hbusy : s.busy = true) (hscan : s.scan = some c) :
    step s = .next ((completeScan c s).withPending (.wait 0 :: rest)) := by
  have hbusy' : (s.withPending rest).busy = true := by simp [hbusy]
  have hengine : engineStep (s.withPending rest) = (completeScan c s).withPending rest := by
    rcases engineStep_withPending_cases s rest with ⟨hnone, -⟩ | ⟨c', hscan', he⟩
    · rw [hscan] at hnone
      cases hnone
    · rw [hscan] at hscan'
      cases hscan'
      exact he
  calc step s = waitPoll 0 (s.withPending rest) := step_of_cons hp
    _ = .next ((engineStep (s.withPending rest)).withPending (.wait 0 :: rest)) := if_pos hbusy'
    _ = _ := by rw [hengine]; rfl

/-- STATUS reads 0 once a scan has completed (`43_scanners.md` R92). -/
theorem completeScan_readReg_status (c : ScanCtx) (s : State) :
    (completeScan c s).readReg .status = 0 := by
  rw [State.readReg, completeScan_status]
  decide

/-- The whole of WAIT over a running scan: each poll but the last reads STATUS as it is, and the
last reads 0. -/
theorem run_wait_of_busy {c : ScanCtx} (hp : s.pending = .wait polls :: rest)
    (hbusy : s.busy = true) (hscan : s.scan = some c) :
    Host.Core.run core (polls + 2) s = .next { completeScan c s with
      pending := rest
      reads := s.reads ++ List.replicate polls (.word (s.readReg .status)) ++ [.word 0] } := by
  induction polls generalizing s with
  | zero =>
    have hidle : ((completeScan c s).withPending (.wait 0 :: rest)).busy = false :=
      completeScan_busy c s
    rw [run_succ_of_next _ (step_wait_zero_of_busy hp hbusy hscan),
      run_succ_of_next _ (step_wait_of_idle rfl hidle), run_zero, State.readReg_withPending,
      completeScan_readReg_status, List.replicate_zero, List.append_nil]
    rfl
  | succ polls ih =>
    have hrun := ih (s := (pollStatus s).withPending (.wait polls :: rest)) rfl hbusy hscan
    rw [run_succ_of_next _ (step_wait_of_busy hp hbusy), hrun, completeScan_withPending, pollStatus,
      completeScan_logRead, List.replicate_succ, State.withPending_reads, State.logRead_reads,
      List.append_assoc s.reads]
    rfl

end

/-! ## Reset during a scan (`70_reset_and_hazards.md` R114) -/

section
variable {s : State} {c : ScanCtx}

theorem resetBlock_mem_of_len (hscan : s.scan = some c) (hkind : c.kind = .len) :
    s.resetBlock.mem = s.mem := by
  rcases resetBlock_cases s with ⟨-, h⟩ | ⟨c', hscan', hkind', -⟩
  · rw [h, State.resetRegisters_mem]
  · obtain rfl : c = c' := Option.some.inj (hscan.symm.trans hscan')
    rw [hkind] at hkind'
    cases hkind'

/-- A reset that ends a scan writes no byte outside XFW's output region. -/
theorem resetBlock_read_of_not_output (hscan : s.scan = some c) {a : Nat}
    (ha : c.output.holds a = false) : s.resetBlock.mem.read a = s.mem.read a := by
  rcases resetBlock_cases s with ⟨-, h⟩ | ⟨c', hscan', -, h⟩ <;>
    rw [h, State.resetRegisters_mem]
  obtain rfl : c = c' := Option.some.inj (hscan.symm.trans hscan')
  rw [← Bool.not_eq_true, Span.holds_iff] at ha
  exact Memory.read_writeFree_other s.mem _ _ (by omega)

/-- The two regions of a launched XFW share no byte (`20_memory.md` R43 item 3). -/
theorem ScanCtx.Latched.output_holds_of_input (h : c.Latched s) (hkind : c.kind = .xfw) {a : Nat}
    (ha : c.input.holds a = true) : c.output.holds a = false := by
  obtain ⟨-, -, hdisj, -⟩ := launchProblem_eq_none_iff.1 h.launch
  exact Span.not_overlaps_iff.1 (hdisj hkind) a ha

end

/-! ## The obligations -/

/-- Settles O9: the three offsets name registers that no host write reaches. -/
theorem readOnlyRegistersIgnoreWrites : Obligations.ReadOnlyRegistersIgnoreWrites := by
  intro s rest off v hoff hp
  have hreg : regAt off = .res0 ∨ regAt off = .res1 ∨ regAt off = .status := by
    rcases hoff with rfl | rfl | rfl <;> simp [regAt]
  have hcmd : ¬ (regAt off = .cmd ∧ (s.withPending rest).busy = false) := by
    rcases hreg with h | h | h <;> simp [h]
  rw [step_hostWrite_of_aligned (by omega) (by omega) hp, hostWriteReg_of_not_issue hcmd,
    State.writeReg_of_not_operand]
  · rfl
  all_goals rcases hreg with h | h | h <;> simp [h]

/-- Settles O10: such a write is no issue, and an idle block's `State.writeReg` stores it. -/
theorem argumentWritesStore : Obligations.ArgumentWritesStore := by
  intro s rest v hidle
  obtain ⟨h0, h1, h2⟩ := State.writeReg_of_idle (s := s.withPending rest) (by simpa using hidle) v
  refine ⟨fun hp => ?_, fun hp => ?_, fun hp => ?_⟩ <;>
    rw [step_hostWrite_of_aligned (by decide) (by decide) hp,
      hostWriteReg_of_not_issue (by simp [regAt])]
  · exact congrArg Host.Outcome.next h0
  · exact congrArg Host.Outcome.next h1
  · exact congrArg Host.Outcome.next h2

/-- Settles O32: the step with no move pending, and the engine's move, by their definitions. -/
theorem engineMoveIsTheEngineStep : Obligations.EngineMoveIsTheEngineStep :=
  fun _ => ⟨step_of_nil, fun _ hp => step_of_cons hp⟩

/-- Settles O37: the commands answer or are refused, so of the moves only the accesses to host
memory can fault. -/
theorem nothingTraps : Obligations.NothingTraps := by
  refine ⟨exec_answers, fun s f h => ?_⟩
  cases hp : s.pending with
  | nil => rw [step_of_nil hp] at h; cases h
  | cons m rest =>
    rw [step_of_cons hp] at h
    cases m with
    | memWrite a bytes =>
      have hpast := hostMemAccess_fault (by split <;> simp) h
      exact ⟨rest, a, .inl ⟨bytes, rfl, hpast⟩⟩
    | memRead a count =>
      have hpast := hostMemAccess_fault (by simp) h
      exact ⟨rest, a, .inr ⟨count, rfl, hpast⟩⟩
    | hostWrite addr width v => exact absurd h (hostWrite_ne_fault addr width v)
    | hostRead addr width => exact absurd h (hostRead_ne_fault addr width)
    | wait polls => exact absurd h (waitPoll_ne_fault polls)
    | engine => cases h
    | reset => cases h

/-- Settles O41: induction on the polls to come. -/
theorem waitEndsWhenTheScanCompletes : Obligations.WaitEndsWhenTheScanCompletes :=
  ⟨fun _ _ _ => step_wait_of_idle, fun _ _ _ _ => run_wait_of_busy⟩

/-- Settles O44: reset touches memory and draws for a running XFW alone. -/
theorem resetLeavesTheHostAlone : Obligations.ResetLeavesTheHostAlone := by
  intro s rest hp
  refine ⟨_, step_of_cons hp, State.resetBlock_pending _, State.resetBlock_plat _,
    State.resetBlock_reads _, fun hscan => ?_⟩
  have hreset : (s.withPending rest).resetBlock = (s.withPending rest).resetRegisters := by
    rw [State.resetBlock, State.withPending_scan, hscan]
  rw [hreset]
  exact ⟨rfl, rfl⟩

/-- Settles O45: the free bytes go to the output region, which a launched XFW has apart from its
input. -/
theorem resetDuringScanSparesTheRest : Obligations.ResetDuringScanSparesTheRest := by
  intro s rest c hinv hp hscan
  have hother {a : Nat} (ha : c.output.holds a = false) :
      (s.withPending rest).resetBlock.mem.read a = s.mem.read a :=
    resetBlock_read_of_not_output (s := s.withPending rest) hscan ha
  have hlen (hkind : c.kind = .len) : (s.withPending rest).resetBlock.mem = s.mem :=
    resetBlock_mem_of_len (s := s.withPending rest) hscan hkind
  refine ⟨_, step_of_cons hp, fun a ha => ?_, fun hkind a => by rw [hlen hkind],
    fun _ a ha => hother ha⟩
  cases hkind : c.kind with
  | len => rw [hlen hkind]
  | xfw => exact hother ((hinv.latched c hscan).output_holds_of_input hkind ha)

/-- Settles O46: the region that holds the byte is guarded and overlaps the write. -/
theorem hostWriteToScanRegionIsRefused : Obligations.HostWriteToScanRegionIsRefused := by
  intro s rest c a bytes x hp hscan hready hlo hhi hx
  obtain ⟨r, hr, hholds⟩ : ∃ r ∈ c.regions, r.holds x = true := by
    rcases hx with hin | ⟨hkind, hout⟩
    · exact ⟨c.input, by cases hkind : c.kind <;> simp [ScanCtx.regions, hkind],
        Span.holds_iff.2 hin⟩
    · exact ⟨c.output, by simp [ScanCtx.regions, hkind], Span.holds_iff.2 hout⟩
  have hguard : s.guarded.any (fun r => r.overlaps ⟨a, bytes.length⟩) = true := by
    rw [State.guarded, hscan]
    exact List.any_eq_true.2
      ⟨r, hr, Span.overlaps_iff.2 ⟨x, hholds, Span.holds_iff.2 ⟨hlo, hhi⟩⟩⟩
  rw [step_memWrite_of_ready hp hready, if_pos hguard]

/-- Settles O47: with no scan running nothing is guarded, and no byte's contents are unspecified. -/
theorem hostMemoryReadsBackWhatWasWritten : Obligations.HostMemoryReadsBackWhatWasWritten := by
  intro s rest a bytes hp hscan hm hready
  have hfree : ¬ s.guarded.any (fun r => r.overlaps ⟨a, bytes.length⟩) = true := by
    simp [State.guarded, hscan]
  refine ⟨_, _, (step_memWrite_of_ready hp hready).trans (if_neg hfree),
    step_memRead_of_ready rfl hready, rfl, ?_, rfl,
    fun x hx => Memory.read_writeBytes_other s.mem bytes hx⟩
  exact congrArg (fun l => s.reads ++ [.bytes l]) (hostBytes_writeBytes hscan hm bytes)

/-- Settles O48: only the output region of a running XFW has unspecified contents. -/
theorem hostReadDuringXfwReturnsStoredBytesOutside :
    Obligations.HostReadDuringXfwReturnsStoredBytesOutside := by
  intro s rest c a count hp hscan _ hready
  refine ⟨s.hostBytes a count, State.hostBytes_length .., fun k hk hout => ?_,
    step_memRead_of_ready hp hready⟩
  exact State.hostBytes_getElem? hk (by simp [State.unspecifiedAt, hscan, hout])

end Sys2Proof.Machine
end
